-- ==== Sys2Proof/Word.lean ====
section
/-! DEFINITION. The word types of gochip8 CORE (`00_scope.md` R6, R7). -/

namespace Sys2Proof

/-- A memory byte, a general register or a timer: 8 bits (`XLEN`, `TLEN`). -/
abbrev Byte := BitVec 8

/-- An instruction word, the index register, the program counter or a stack slot: 16 bits. -/
abbrev Word := BitVec 16

/-- A register selector, 0..15 (`10_state.md` R21: all sixteen are legal). -/
abbrev Reg := Fin 16

/-- The register `VF`, which carries the flags (`10_state.md` R22). -/
def VF : Reg := 15

end Sys2Proof
end

