-- ==== Sys2Proof/Syntax.lean ====
section
/-! DEFINITION. The 34 instructions of the opcode map (`30_encoding.md` R75), one constructor a row, in the table's order. -/

namespace Sys2Proof

/-- An instruction with its operands (`30_encoding.md` R71, R73): `x`, `y` register selectors, `nn` an unsigned 8-bit
immediate, `nnn` an unsigned 12-bit byte address, `n` an unsigned row count. -/
inductive Instr where
  /-- `00E0`, clear display. -/
  | cls
  /-- `00EE`, return from subroutine. -/
  | ret
  /-- `1NNN`, jump. -/
  | jp (nnn : BitVec 12)
  /-- `2NNN`, call subroutine. -/
  | call (nnn : BitVec 12)
  /-- `3XNN`, skip if register equals immediate. -/
  | se (x : Reg) (nn : Byte)
  /-- `4XNN`, skip if register differs from immediate. -/
  | sne (x : Reg) (nn : Byte)
  /-- `5XY0`, skip if registers are equal. -/
  | ser (x y : Reg)
  /-- `6XNN`, load immediate. -/
  | ld (x : Reg) (nn : Byte)
  /-- `7XNN`, add immediate, no flag. -/
  | add (x : Reg) (nn : Byte)
  /-- `8XY0`, assign. -/
  | mov (x y : Reg)
  /-- `8XY1`, bitwise OR. -/
  | or (x y : Reg)
  /-- `8XY2`, bitwise AND. -/
  | and (x y : Reg)
  /-- `8XY3`, bitwise XOR. -/
  | xor (x y : Reg)
  /-- `8XY4`, add registers, carry to `VF`. -/
  | addr (x y : Reg)
  /-- `8XY5`, subtract, not-borrow to `VF`. -/
  | sub (x y : Reg)
  /-- `8XY6`, shift right by 1, bit 0 to `VF`. -/
  | shr (x y : Reg)
  /-- `8XY7`, reverse subtract, not-borrow to `VF`. -/
  | subn (x y : Reg)
  /-- `8XYE`, shift left by 1, bit 7 to `VF`. -/
  | shl (x y : Reg)
  /-- `9XY0`, skip if registers differ. -/
  | sner (x y : Reg)
  /-- `ANNN`, set the index register. -/
  | ldi (nnn : BitVec 12)
  /-- `BNNN`, jump to `NNN + V0`. -/
  | jpv0 (nnn : BitVec 12)
  /-- `CXNN`, random byte AND immediate. -/
  | rnd (x : Reg) (nn : Byte)
  /-- `DXYN`, draw a sprite of `n` rows. -/
  | drw (x y : Reg) (n : Nat)
  /-- `EX9E`, skip if the key is pressed. -/
  | skp (x : Reg)
  /-- `EXA1`, skip if the key is released. -/
  | sknp (x : Reg)
  /-- `FX07`, read the delay timer. -/
  | lddt (x : Reg)
  /-- `FX0A`, wait for a key. -/
  | wkey (x : Reg)
  /-- `FX15`, write the delay timer. -/
  | stdt (x : Reg)
  /-- `FX18`, write the sound timer. -/
  | stst (x : Reg)
  /-- `FX1E`, add a register to the index register. -/
  | addi (x : Reg)
  /-- `FX29`, point the index register at a glyph. -/
  | font (x : Reg)
  /-- `FX33`, store the three decimal digits. -/
  | bcd (x : Reg)
  /-- `FX55`, store registers `V0`..`VX`. -/
  | stm (x : Reg)
  /-- `FX65`, load registers `V0`..`VX`. -/
  | ldm (x : Reg)
  deriving DecidableEq, Repr

end Sys2Proof
end

