-- ==== Sys2Proof/WellFormed.lean ====
section
/-! DEFINITION. Which instructions have a word (`30_encoding.md` R71, R73). -/

namespace Sys2Proof

/-- Can the instruction be encoded? The operand types admit exactly the values of the fields `X`, `Y`, `NN` and `NNN`;
the one check left is that the row count of `DRW` fits the 4-bit field `N` ("an unsigned row count 0..15", R73). -/
def WellFormed : Instr → Bool
  | .drw _ _ n => decide (n < 16)
  | .cls | .ret | .jp _ | .call _ | .se _ _ | .sne _ _ | .ser _ _ | .ld _ _ | .add _ _ | .mov _ _ | .or _ _ | .and _ _
  | .xor _ _ | .addr _ _ | .sub _ _ | .shr _ _ | .subn _ _ | .shl _ _ | .sner _ _ | .ldi _ | .jpv0 _ | .rnd _ _
  | .skp _ | .sknp _ | .lddt _ | .wkey _ | .stdt _ | .stst _ | .addi _ | .font _ | .bcd _ | .stm _ | .ldm _ => true

end Sys2Proof
end

