-- ==== Sys2Proof/Decode.lean ====
section
/-! DEFINITION. The decoder, by the opcode map (`30_encoding.md` R71, R74, R75, R77), and after it the encoder
(`30_encoding.md` R72, R80). -/

namespace Sys2Proof

/-- Why bytes are no instruction. -/
inductive DecodeError where
  /-- Fewer than two bytes: no whole word (`30_encoding.md` R70). -/
  | truncated
  /-- The word matches no row of the opcode map (`30_encoding.md` R77). -/
  | illegal (w : Word)
  deriving DecidableEq, Repr

/-- `X = w[11:8]` (`30_encoding.md` R71). -/
def fieldX (w : Word) : Reg := (w.extractLsb' 8 4).toFin

/-- `Y = w[7:4]`. -/
def fieldY (w : Word) : Reg := (w.extractLsb' 4 4).toFin

/-- `N = w[3:0]`. -/
def fieldN (w : Word) : Nat := (w.extractLsb' 0 4).toNat

/-- `NN = w[7:0]`. -/
def fieldNN (w : Word) : Byte := w.extractLsb' 0 8

/-- `NNN = w[11:0]`. -/
def fieldNNN (w : Word) : BitVec 12 := w.extractLsb' 0 12

/-- One row of the opcode map: a word `w` is the instruction iff `w AND mask = match` (`30_encoding.md` R75). -/
structure OpRow where
  mask : Word
  pattern : Word
  build : Word → Instr

/-- The rows of families 0 to 7. -/
def opcodeRows0to7 : List OpRow :=
  [⟨0xFFFF#16, 0x00E0#16, fun _ => .cls⟩,
   ⟨0xFFFF#16, 0x00EE#16, fun _ => .ret⟩,
   ⟨0xF000#16, 0x1000#16, fun w => .jp (fieldNNN w)⟩,
   ⟨0xF000#16, 0x2000#16, fun w => .call (fieldNNN w)⟩,
   ⟨0xF000#16, 0x3000#16, fun w => .se (fieldX w) (fieldNN w)⟩,
   ⟨0xF000#16, 0x4000#16, fun w => .sne (fieldX w) (fieldNN w)⟩,
   ⟨0xF00F#16, 0x5000#16, fun w => .ser (fieldX w) (fieldY w)⟩,
   ⟨0xF000#16, 0x6000#16, fun w => .ld (fieldX w) (fieldNN w)⟩,
   ⟨0xF000#16, 0x7000#16, fun w => .add (fieldX w) (fieldNN w)⟩]

/-- The rows of family 8. -/
def opcodeRows8 : List OpRow :=
  [⟨0xF00F#16, 0x8000#16, fun w => .mov (fieldX w) (fieldY w)⟩,
   ⟨0xF00F#16, 0x8001#16, fun w => .or (fieldX w) (fieldY w)⟩,
   ⟨0xF00F#16, 0x8002#16, fun w => .and (fieldX w) (fieldY w)⟩,
   ⟨0xF00F#16, 0x8003#16, fun w => .xor (fieldX w) (fieldY w)⟩,
   ⟨0xF00F#16, 0x8004#16, fun w => .addr (fieldX w) (fieldY w)⟩,
   ⟨0xF00F#16, 0x8005#16, fun w => .sub (fieldX w) (fieldY w)⟩,
   ⟨0xF00F#16, 0x8006#16, fun w => .shr (fieldX w) (fieldY w)⟩,
   ⟨0xF00F#16, 0x8007#16, fun w => .subn (fieldX w) (fieldY w)⟩,
   ⟨0xF00F#16, 0x800E#16, fun w => .shl (fieldX w) (fieldY w)⟩]

/-- The rows of families 9 to D. -/
def opcodeRows9toD : List OpRow :=
  [⟨0xF00F#16, 0x9000#16, fun w => .sner (fieldX w) (fieldY w)⟩,
   ⟨0xF000#16, 0xA000#16, fun w => .ldi (fieldNNN w)⟩,
   ⟨0xF000#16, 0xB000#16, fun w => .jpv0 (fieldNNN w)⟩,
   ⟨0xF000#16, 0xC000#16, fun w => .rnd (fieldX w) (fieldNN w)⟩,
   ⟨0xF000#16, 0xD000#16, fun w => .drw (fieldX w) (fieldY w) (fieldN w)⟩]

/-- The rows of families E and F. -/
def opcodeRowsEF : List OpRow :=
  [⟨0xF0FF#16, 0xE09E#16, fun w => .skp (fieldX w)⟩,
   ⟨0xF0FF#16, 0xE0A1#16, fun w => .sknp (fieldX w)⟩,
   ⟨0xF0FF#16, 0xF007#16, fun w => .lddt (fieldX w)⟩,
   ⟨0xF0FF#16, 0xF00A#16, fun w => .wkey (fieldX w)⟩,
   ⟨0xF0FF#16, 0xF015#16, fun w => .stdt (fieldX w)⟩,
   ⟨0xF0FF#16, 0xF018#16, fun w => .stst (fieldX w)⟩,
   ⟨0xF0FF#16, 0xF01E#16, fun w => .addi (fieldX w)⟩,
   ⟨0xF0FF#16, 0xF029#16, fun w => .font (fieldX w)⟩,
   ⟨0xF0FF#16, 0xF033#16, fun w => .bcd (fieldX w)⟩,
   ⟨0xF0FF#16, 0xF055#16, fun w => .stm (fieldX w)⟩,
   ⟨0xF0FF#16, 0xF065#16, fun w => .ldm (fieldX w)⟩]

/-- The opcode map, in ascending encoding order (`30_encoding.md` R75). -/
def opcodeRows : List OpRow := opcodeRows0to7 ++ opcodeRows8 ++ opcodeRows9toD ++ opcodeRowsEF

/-- Decoding is a function of the 16-bit word alone (`30_encoding.md` R74); a word that matches no row is illegal (R77). -/
def decodeWord (w : Word) : Except DecodeError Instr :=
  match opcodeRows.find? (fun r => w &&& r.mask == r.pattern) with
  | some r => .ok (r.build w)
  | none => .error (.illegal w)

/-- The word of two bytes in memory order: the first is the high byte (`20_memory.md` R55). -/
def joinBytes (hi lo : Byte) : Word := hi ++ lo

/-- Decodes the first instruction of a list of bytes and gives the rest back; every instruction is two bytes
(`30_encoding.md` R70). -/
def decode : List Byte → Except DecodeError (Instr × List Byte)
  | hi :: lo :: rest =>
    match decodeWord (joinBytes hi lo) with
    | .ok i => .ok (i, rest)
    | .error e => .error e
  | [_] => .error .truncated
  | [] => .error .truncated

/-- A register selector as a 4-bit field. -/
def nibble (x : Reg) : BitVec 4 := BitVec.ofNat 4 x.val

/-- The encoder, by the formats of `30_encoding.md` R72 and the patterns of R75. -/
def encode : Instr → Word
  | .cls => 0x00E0#16
  | .ret => 0x00EE#16
  | .jp nnn => 0x1#4 ++ nnn
  | .call nnn => 0x2#4 ++ nnn
  | .se x nn => 0x3#4 ++ nibble x ++ nn
  | .sne x nn => 0x4#4 ++ nibble x ++ nn
  | .ser x y => 0x5#4 ++ nibble x ++ nibble y ++ 0x0#4
  | .ld x nn => 0x6#4 ++ nibble x ++ nn
  | .add x nn => 0x7#4 ++ nibble x ++ nn
  | .mov x y => 0x8#4 ++ nibble x ++ nibble y ++ 0x0#4
  | .or x y => 0x8#4 ++ nibble x ++ nibble y ++ 0x1#4
  | .and x y => 0x8#4 ++ nibble x ++ nibble y ++ 0x2#4
  | .xor x y => 0x8#4 ++ nibble x ++ nibble y ++ 0x3#4
  | .addr x y => 0x8#4 ++ nibble x ++ nibble y ++ 0x4#4
  | .sub x y => 0x8#4 ++ nibble x ++ nibble y ++ 0x5#4
  | .shr x y => 0x8#4 ++ nibble x ++ nibble y ++ 0x6#4
  | .subn x y => 0x8#4 ++ nibble x ++ nibble y ++ 0x7#4
  | .shl x y => 0x8#4 ++ nibble x ++ nibble y ++ 0xE#4
  | .sner x y => 0x9#4 ++ nibble x ++ nibble y ++ 0x0#4
  | .ldi nnn => 0xA#4 ++ nnn
  | .jpv0 nnn => 0xB#4 ++ nnn
  | .rnd x nn => 0xC#4 ++ nibble x ++ nn
  | .drw x y n => 0xD#4 ++ nibble x ++ nibble y ++ BitVec.ofNat 4 n
  | .skp x => 0xE#4 ++ nibble x ++ 0x9E#8
  | .sknp x => 0xE#4 ++ nibble x ++ 0xA1#8
  | .lddt x => 0xF#4 ++ nibble x ++ 0x07#8
  | .wkey x => 0xF#4 ++ nibble x ++ 0x0A#8
  | .stdt x => 0xF#4 ++ nibble x ++ 0x15#8
  | .stst x => 0xF#4 ++ nibble x ++ 0x18#8
  | .addi x => 0xF#4 ++ nibble x ++ 0x1E#8
  | .font x => 0xF#4 ++ nibble x ++ 0x29#8
  | .bcd x => 0xF#4 ++ nibble x ++ 0x33#8
  | .stm x => 0xF#4 ++ nibble x ++ 0x55#8
  | .ldm x => 0xF#4 ++ nibble x ++ 0x65#8

/-- The two bytes of a word in memory order, high byte first (`20_memory.md` R55, `30_encoding.md` R81). -/
def wordBytes (w : Word) : List Byte := [w.extractLsb' 8 8, w.extractLsb' 0 8]

/-- The instruction's word whose bits are `w` when `nbits` of them are given and the rest are 0. -/
def tableWord (nbits w : Nat) : Word := BitVec.ofNat 16 (w % 2 ^ nbits)

/-- What the decoder reads from a word numbered as the opcode table numbers its bits (one 16-bit word, bit 0 the least
significant): the word is laid out big-endian and decoded from its bytes. -/
def decodeTableWord (nbits w : Nat) : Option Instr :=
  match decode (wordBytes (tableWord nbits w)) with
  | .ok (i, _) => some i
  | .error _ => none

end Sys2Proof
end

