-- ==== Sys2Proof/Config.lean ====
section
/-! DEFINITION. The parameters an implementation fixes (`00_scope.md` R6) and the free values (`42_alu.md` R145,
`40_step_cycle.md` R100). The default values stand in Machine/Parameters.lean. -/

namespace Sys2Proof

/-- `SHIFT_SRC`: the register the two shifts read (`42_alu.md` R141, R143). -/
inductive ShiftSource where
  | vx
  | vy
  deriving DecidableEq, Repr

/-- `VF_ORDER`: the order of the flag write and the result write (`42_alu.md` R132). -/
inductive FlagOrder where
  | flagThenResult
  | resultThenFlag
  deriving DecidableEq, Repr

/-- `KEYSEL`: which key a register value above 15 names in `SKP` and `SKNP` (`45_keypad_timers.md` R185). -/
inductive KeySelect where
  | lowNibble
  /-- The alternative of `93_implementation_defined.md` part 4: a value above 15 faults. -/
  | faultAbove15
  deriving DecidableEq, Repr

/-- The parameters of `00_scope.md` R6 that an implementation may set. -/
structure Config where
  /-- `MEM_SIZE`, bytes of memory. -/
  memSize : Nat
  /-- `PROG_BASE`, the program base address and the reset value of `pc`. -/
  progBase : Word
  /-- `FONT`, the glyph bytes at address 0 upward. -/
  font : List Byte
  shiftSource : ShiftSource
  flagOrder : FlagOrder
  keySelect : KeySelect
  /-- `WAIT_TICKS_TIMERS`: does an idle key-wait step run the timer phase (`40_step_cycle.md` R91)? -/
  waitTicksTimers : Bool
  deriving DecidableEq, Repr

/-- The sixteen key levels, `true` for pressed (`60_exceptions.md` R213). -/
abbrev Keys := Vector Bool 16

/-- FREE VALUE (log 8): the key levels the host presents in step number `n` when it has set none beforehand.
Nothing constrains it (`40_step_cycle.md` R100: "unconstrained"). -/
opaque Config.freeKeys : Nat → Keys

/-- FREE VALUE (log 8): the byte the random source supplies in step number `n` when the host has set none beforehand.
Nothing constrains it (`42_alu.md` R145: "about which nothing may be assumed"). -/
opaque Config.freeByte : Nat → Byte

end Sys2Proof
end

