-- ==== Sys2Proof/Machine/Parameters.lean ====
section
/-! DEFINITION. The values of the parameters (`00_scope.md` R6): constants the source fixes, and the defaults of the others. -/

namespace Sys2Proof.Machine

/-- `FONT_BASE`, the address of glyph 0 (`00_scope.md` R6). -/
def fontBase : Nat := 0

/-- `GLYPH_STRIDE`, bytes per glyph (`00_scope.md` R6). -/
def glyphStride : Nat := 5

/-- Glyphs 0 to 7 of the default font (`20_memory.md` R58). -/
def glyphs0to7 : List Byte :=
  [0xF0, 0x90, 0x90, 0x90, 0xF0] ++ [0x20, 0x60, 0x20, 0x20, 0x70] ++
  [0xF0, 0x10, 0xF0, 0x80, 0xF0] ++ [0xF0, 0x10, 0xF0, 0x10, 0xF0] ++
  [0x90, 0x90, 0xF0, 0x10, 0x10] ++ [0xF0, 0x80, 0xF0, 0x10, 0xF0] ++
  [0xF0, 0x80, 0xF0, 0x90, 0xF0] ++ [0xF0, 0x10, 0x20, 0x40, 0x40]

/-- Glyphs 8 to F of the default font (`20_memory.md` R58). -/
def glyphs8toF : List Byte :=
  [0xF0, 0x90, 0xF0, 0x90, 0xF0] ++ [0xF0, 0x90, 0xF0, 0x10, 0xF0] ++
  [0xF0, 0x90, 0xF0, 0x90, 0x90] ++ [0xE0, 0x90, 0xE0, 0x90, 0xE0] ++
  [0xF0, 0x80, 0x80, 0x80, 0xF0] ++ [0xE0, 0x90, 0x90, 0x90, 0xE0] ++
  [0xF0, 0x80, 0xF0, 0x80, 0xF0] ++ [0xF0, 0x80, 0xF0, 0x80, 0x80]

/-- The default font, 16 glyphs of 5 bytes (`20_memory.md` R58, log 2). -/
def defaultFont : List Byte := glyphs0to7 ++ glyphs8toF

/-- The default value of every parameter (`00_scope.md` R6; logs 2 to 5). -/
def defaultConfig : Config where
  memSize := 4096
  progBase := 0x200
  font := defaultFont
  shiftSource := .vx
  flagOrder := .flagThenResult
  keySelect := .lowNibble
  waitTicksTimers := false

end Sys2Proof.Machine
end

