-- ==== Sys2Proof/Machine/State.lean ====
section
/-! DEFINITION. The whole state of the machine as plain data (`10_state.md` R20), the reasons a step stops, and reset
(`70_reset_and_hazards.md` R231). -/

namespace Sys2Proof.Machine

/-- What an access that met the end of memory was doing (`60_exceptions.md` R200). -/
inductive AccessKind where
  | fetch
  | read
  | write
  deriving DecidableEq, Repr

/-- The fault kinds with their recorded info (`60_exceptions.md` R200). Each ends the run, as the spec says (R205), so
each is safe. -/
inductive Fault where
  /-- Code 1, an address at or beyond `MEM_SIZE` (R201). Raised by the fetch of a running step, by `DRW` and `LDM`
  (read) and by `BCD` and `STM` (write). Safe: the spec's own fault. -/
  | outOfBounds (addr : Nat) (kind : AccessKind)
  /-- Code 2, `CALL` with sixteen return addresses held (R202); `a` is the address of the `CALL`. Safe: the spec's own
  fault. -/
  | stackOverflow (a : Word)
  /-- Code 3, `RET` with none held (R202); `a` is the address of the `RET`. Safe: the spec's own fault. -/
  | stackUnderflow (a : Word)
  /-- Code 4, raised by the host's `load`, never by a step (R203). Safe: the spec's own fault. -/
  | capacityExceeded (base len : Nat)
  /-- Code 5, the fetched word is no instruction (R204); `a` is the address it was fetched from. Raised by a running
  step at decode. Safe: the spec's own fault. -/
  | illegalOpcode (w : Word) (a : Word)
  /-- `SKP` or `SKNP` with a register value above 15, raised only under the non-default parameter value
  `KeySelect.faultAbove15` (`92_eei_decisions.md` D11, log 4); `a` is the instruction's address. Safe: it stops where
  another machine goes on. -/
  | keyCode (v : Byte) (a : Word)
  deriving DecidableEq, Repr

/-- Why an instruction has no meaning. -/
inductive Refusal where
  /-- The arm of an instruction this model has not reached, raised by `exec` only. Safe: it stops. No arm raises it. -/
  | notModelled (mnemonic : String)
  deriving DecidableEq, Repr

/-- The suspension state (`10_state.md` R31). -/
inductive WaitState where
  | running
  /-- Awaiting a key for register `r`. -/
  | awaiting (r : Reg)
  deriving DecidableEq, Repr

/-- What the host supplies to one step (`40_step_cycle.md` R90, R100): the sixteen key levels and the byte the random
source gives if the step executes `RND`. -/
structure StepInput where
  keys : Keys
  random : Byte
  deriving DecidableEq, Repr

/-- Memory: the bytes that differ from the reset contents, in rising order of address (`20_memory.md` R51, log 6). -/
abbrev Memory := List Host.Cell

/-- The frame buffer, 32 rows of 64 pixels, `true` for lit (`10_state.md` R33). -/
abbrev FrameBuffer := Vector (Vector Bool 64) 32

/-- The complete state of the machine. The first twelve fields are `10_state.md` R20's; the last four are the model's
own (logs 1, 8 and 11). -/
structure State where
  /-- `V0`..`VF` (R21). -/
  regs : Vector Byte 16
  /-- `I` (R24). -/
  index : Word
  /-- The program counter (R25). -/
  pc : Word
  /-- The sixteen return-address slots (R27). -/
  stack : Vector Word 16
  /-- How many return addresses are held, 0..16 (R27). -/
  sp : Fin 17
  /-- The delay timer (R29). -/
  dt : Byte
  /-- The sound timer (R30). -/
  st : Byte
  /-- The suspension state (R31). -/
  wait : WaitState
  /-- The one-shot redraw flag (R32). -/
  drawPending : Bool
  /-- The frame buffer (R33). -/
  fb : FrameBuffer
  /-- Memory (R34). -/
  mem : Memory
  /-- The fault the machine has stopped with, if any (R36). -/
  fault : Option Fault
  /-- The sound-trigger output of the latest step (`40_step_cycle.md` R97, log 11). -/
  beep : Bool
  /-- The inputs the host has set for the coming steps, oldest first (log 8). -/
  inputs : List StepInput
  /-- The number of completed steps, the argument of the free input values (log 8). -/
  tick : Nat
  /-- The parameters, which no step changes (`10_state.md` R35, log 1). -/
  cfg : Config
  deriving DecidableEq, Repr

/-- The machine right after construction, as a function of the configuration (`70_reset_and_hazards.md` R230, R231). -/
def State.resetWith (c : Config) : State where
  regs := Vector.replicate 16 0
  index := 0
  pc := c.progBase
  stack := Vector.replicate 16 0
  sp := 0
  dt := 0
  st := 0
  wait := .running
  drawPending := false
  fb := Vector.replicate 32 (Vector.replicate 64 false)
  mem := []
  fault := none
  beep := false
  inputs := []
  tick := 0
  cfg := c

/-- The machine right after reset with the default parameters. -/
def State.reset : State := State.resetWith defaultConfig

end Sys2Proof.Machine
end

