-- ==== Sys2Proof/Machine/Ops.lean ====
section
/-! DEFINITION. The named operations on memory, registers, the stack, the display and the timers, and raising a fault. -/

namespace Sys2Proof.Machine

/-! ### Faults: the machine's only exceptions (`60_exceptions.md` R200, R205, R206) -/

/-- Raising a fault (`60_exceptions.md` R205): the step ends here and reports the fault to the host. Nothing is saved,
control goes nowhere, and there is no return from it (R206). The state the machine is left in is `recordFault`'s. -/
def raise (f : Fault) : Host.Outcome State Fault Refusal := .fault f

/-- `fault <- Some(kind, info)` (`40_step_cycle.md` R98). The other components are unspecified after a faulting step;
the model keeps the state before the step, as R98 permits (log 10), with the sound output off: "no beep is emitted". -/
def recordFault (f : Fault) (s : State) : State := { s with fault := some f, beep := false }

/-- An operation that may fault, as the outcome of an instruction. -/
def finish : Except Fault State → Host.Outcome State Fault Refusal
  | .ok t => .next t
  | .error f => raise f

/-- The numeric codes of the spec's five kinds (`60_exceptions.md` R200); the model's `keyCode` has none. -/
def Fault.code : Fault → Option Nat
  | .outOfBounds _ _ => some 1
  | .stackOverflow _ => some 2
  | .stackUnderflow _ => some 3
  | .capacityExceeded _ _ => some 4
  | .illegalOpcode _ _ => some 5
  | .keyCode _ _ => none

/-! ### Memory (`20_memory.md` R51 to R54, R60) -/

/-- What an address that is not listed reads as: the reset contents, the font from address 0 (`fontBase`) and 0 above it
(`20_memory.md` R57, `10_state.md` R34, log 6). -/
def Memory.unlisted (c : Config) (a : Nat) : Byte := c.font.getD a 0

/-- The byte at an address, with no bounds check. -/
def Memory.read (c : Config) : Memory → Nat → Byte
  | [], a => Memory.unlisted c a
  | (b, v) :: m, a => if a = b then v else Memory.read c m a

/-- Memory without an entry for `a`. -/
def Memory.erase (m : Memory) (a : Nat) : Memory := m.filter fun p => p.1 != a

/-- An entry put in its place in rising order of address. -/
def Memory.place (a : Nat) (v : Byte) : Memory → Memory
  | [] => [(a, v)]
  | (b, u) :: m => if a < b then (a, v) :: (b, u) :: m else (b, u) :: Memory.place a v m

/-- Memory with one byte written, with no bounds check. Writing what an unlisted address reads as removes the entry, so
that the canonical form is kept. -/
def Memory.write (c : Config) (m : Memory) (a : Nat) (v : Byte) : Memory :=
  if v = Memory.unlisted c a then Memory.erase m a else Memory.place a v (Memory.erase m a)

/-- The canonical form: addresses strictly rising and inside memory, and no entry equal to what an unlisted address
reads as. -/
abbrev Memory.wf (c : Config) (m : Memory) : Prop :=
  m.Pairwise (fun p q => p.1 < q.1) ∧ ∀ p ∈ m, p.1 < c.memSize ∧ p.2 ≠ Memory.unlisted c p.1

/-- The byte at an address of this state's memory, with no bounds check. -/
def State.peek (s : State) (a : Nat) : Byte := Memory.read s.cfg s.mem a

/-- This state with one byte of memory written, with no bounds check. -/
def State.poke (s : State) (a : Nat) (v : Byte) : State := { s with mem := Memory.write s.cfg s.mem a v }

/-- `MemRead(addr, 1)` (`20_memory.md` R52). -/
def readByte (a : Nat) (s : State) : Except Fault Byte :=
  if a < s.cfg.memSize then .ok (s.peek a) else .error (.outOfBounds a .read)

/-- `MemWrite(addr, 1, v)` (`20_memory.md` R53). -/
def writeByte (a : Nat) (v : Byte) (s : State) : Except Fault State :=
  if a < s.cfg.memSize then .ok (s.poke a v) else .error (.outOfBounds a .write)

/-- `MemRead(addr, 2)`, the big-endian instruction read; both bytes must be inside memory (`20_memory.md` R54). -/
def readWord (a : Nat) (s : State) : Except Fault Word :=
  if a + 1 < s.cfg.memSize then .ok (s.peek a ++ s.peek (a + 1)) else .error (.outOfBounds a .fetch)

/-- `n` byte reads in ascending order of address; the first one out of bounds faults (`43_index_memory.md` R150). -/
def readBytes (a : Nat) (s : State) : Nat → Except Fault (List Byte)
  | 0 => .ok []
  | n + 1 =>
    match readByte a s with
    | .error f => .error f
    | .ok b =>
      match readBytes (a + 1) s n with
      | .error f => .error f
      | .ok bs => .ok (b :: bs)

/-- Byte writes in ascending order of address; the first one out of bounds faults (`43_index_memory.md` R150). -/
def writeBytes (a : Nat) : List Byte → State → Except Fault State
  | [], s => .ok s
  | b :: bs, s =>
    match writeByte a b s with
    | .error f => .error f
    | .ok t => writeBytes (a + 1) bs t

/-- Consecutive bytes copied into memory with no bounds check. -/
def State.pokeAll (s : State) (a : Nat) : List Byte → State
  | [] => s
  | b :: bs => (s.poke a b).pokeAll (a + 1) bs

/-! ### Registers and the program counter (`10_state.md` R21, R25, R26) -/

/-- `x[r]`. -/
def State.reg (s : State) (r : Reg) : Byte := s.regs[r]

/-- `x[r] <- v`. -/
def State.setReg (s : State) (r : Reg) (v : Byte) : State := { s with regs := s.regs.set r.val v r.isLt }

/-- `x[0], x[1], ... <- bytes`; registers beyond the list keep their values (`43_index_memory.md` R156). -/
def State.loadRegs (s : State) (bytes : List Byte) : State :=
  { s with regs := Vector.ofFn fun r => bytes.getD r.val (s.reg r) }

/-- `x[0], ..., x[r]` (`43_index_memory.md` R155). -/
def State.regsUpTo (s : State) (r : Reg) : List Byte := s.regs.toList.take (r.val + 1)

/-- `I <- v`. -/
def State.setIndex (s : State) (v : Word) : State := { s with index := v }

/-- `pc <- v`. -/
def State.setPc (s : State) (v : Word) : State := { s with pc := v }

/-- `pc <- (pc + 2) mod 65536`, the advance of a fetched instruction (`40_step_cycle.md` R94). -/
def State.advance (s : State) : State := s.setPc (s.pc + 2)

/-- Passes over two more bytes if the condition holds (`41_flow.md` R110). -/
def State.skipIf (s : State) (cond : Bool) : State := s.setPc (if cond then s.pc + 2 else s.pc)

/-- The address the executing instruction was fetched from: `pc` is already advanced (`40_step_cycle.md` R95, log 18). -/
def State.instrAddr (s : State) : Word := s.pc - 2

/-! ### The call stack (`10_state.md` R27, R28) -/

/-- Stores at `stack[sp]`, then increments `sp`; nothing where sixteen addresses are held. -/
def State.push (s : State) (v : Word) : Option State :=
  if h : s.sp.val < 16 then
    some { s with stack := s.stack.set s.sp.val v h, sp := ⟨s.sp.val + 1, Nat.succ_lt_succ h⟩ }
  else none

/-- Decrements `sp`, then reads `stack[sp]`, which keeps its value; nothing where no address is held. -/
def State.pop (s : State) : Option (Word × State) :=
  if h : 0 < s.sp.val then
    have h1 : s.sp.val - 1 < 16 := Nat.lt_of_lt_of_le (Nat.sub_lt h Nat.one_pos) (Nat.le_of_lt_succ s.sp.isLt)
    some (s.stack[s.sp.val - 1], { s with sp := ⟨s.sp.val - 1, Nat.lt_succ_of_lt h1⟩ })
  else none

/-! ### The timers and the wait state (`10_state.md` R29 to R31) -/

/-- `DT <- v`. -/
def State.setDelay (s : State) (v : Byte) : State := { s with dt := v }

/-- `ST <- v`. -/
def State.setSound (s : State) (v : Byte) : State := { s with st := v }

/-- `wait <- w`. -/
def State.setWait (s : State) (w : WaitState) : State := { s with wait := w }

/-- One decrement, floored at zero (`40_step_cycle.md` R96). -/
def countDown (v : Byte) : Byte := if v = 0 then 0 else v - 1

/-- The timer phase (`40_step_cycle.md` R96, R97): both timers count down, and the sound output pulses exactly when
`ST` goes from 1 to 0. -/
def State.timerPhase (s : State) : State :=
  { s with dt := countDown s.dt, st := countDown s.st, beep := decide (s.st = 1) }

/-! ### The inputs of a step (`40_step_cycle.md` R100, `42_alu.md` R145, log 8) -/

/-- The inputs of this step: the ones the host has set, or free values. -/
def State.input (s : State) : StepInput :=
  match s.inputs with
  | i :: _ => i
  | [] => ⟨Config.freeKeys s.tick, Config.freeByte s.tick⟩

/-- `KeyPressed(k)` (`00_scope.md` R9). -/
def State.keyPressed (s : State) (k : Reg) : Bool := s.input.keys[k]

/-- `LowestPressed()`: the smallest pressed key, if any (`00_scope.md` R9, `40_step_cycle.md` R92). -/
def State.lowestPressed (s : State) : Option Reg := (List.finRange 16).find? fun k => s.keyPressed k

/-- `Rand()` (`42_alu.md` R145). -/
def State.rand (s : State) : Byte := s.input.random

/-- The end of a completed step: its inputs are used up. -/
def State.nextInput (s : State) : State := { s with inputs := s.inputs.tail, tick := s.tick + 1 }

/-! ### The display (`44_display.md` R170 to R176) -/

/-- `getPixel(x, y)`: column `x`, row `y`. -/
def FrameBuffer.pixel (fb : FrameBuffer) (x : Fin 64) (y : Fin 32) : Bool := fb[y][x]

/-- `setPixel(x, y, NOT getPixel(x, y))`. -/
def FrameBuffer.toggle (fb : FrameBuffer) (x : Fin 64) (y : Fin 32) : FrameBuffer :=
  fb.set y.val (fb[y].set x.val (!FrameBuffer.pixel fb x y) x.isLt) y.isLt

/-- The frame buffer `clear()` leaves. -/
def FrameBuffer.blank : FrameBuffer := Vector.replicate 32 (Vector.replicate 64 false)

/-- The frame buffer is replaced and the host's renderer is told (`10_state.md` R32). -/
def State.setFrame (s : State) (fb : FrameBuffer) : State := { s with fb := fb, drawPending := true }

/-- A frame buffer being drawn on, and whether a lit pixel has been toggled so far (`44_display.md` R174). -/
abbrev Canvas := FrameBuffer × Bool

/-- The eight pixels of a sprite byte from left to right: column `col` is bit `7 - col` (`44_display.md` R172). -/
def spriteBits (b : Byte) : List Bool := (List.range 8).map fun col => b.getLsbD (7 - col)

/-- A column wrapped modulo 64 (`44_display.md` R173). -/
def wrapColumn (n : Nat) : Fin 64 := ⟨n % 64, Nat.mod_lt n (Nat.succ_pos 63)⟩

/-- A row wrapped modulo 32 (`44_display.md` R173). -/
def wrapRow (n : Nat) : Fin 32 := ⟨n % 32, Nat.mod_lt n (Nat.succ_pos 31)⟩

/-- One sprite pixel: a set bit toggles the pixel and collides if it was lit. -/
def plot (x : Fin 64) (y : Fin 32) (on : Bool) (d : Canvas) : Canvas :=
  if on then (FrameBuffer.toggle d.1 x y, d.2 || FrameBuffer.pixel d.1 x y) else d

/-- The pixels of one row from column `vx` on. -/
def drawRow (vx : Nat) (y : Fin 32) : List Bool → Canvas → Canvas
  | [], d => d
  | on :: rest, d => drawRow (vx + 1) y rest (plot (wrapColumn vx) y on d)

/-- The rows of a sprite from row `vy` on. -/
def drawRows (vx vy : Nat) : List Byte → Canvas → Canvas
  | [], d => d
  | b :: rest, d => drawRows vx (vy + 1) rest (drawRow vx (wrapRow vy) (spriteBits b) d)

end Sys2Proof.Machine
end

