-- ==== Sys2Proof/Machine/Flags.lean ====
section
/-! DEFINITION. The arithmetic of the ALU, the flag values written to `VF`, and the order of the two writes
(`42_alu.md` R130 to R132, `10_state.md` R22). -/

namespace Sys2Proof.Machine

/-- A flag value, always exactly 0 or 1 (`10_state.md` R22). -/
def flagByte (b : Bool) : Byte := if b then 1 else 0

/-- `(a + b) mod 256` (`42_alu.md` R130). -/
def addBytes (a b : Byte) : Byte := BitVec.ofNat 8 (a.toNat + b.toNat)

/-- The carry out: the exact sum is 256 or more (`42_alu.md` R139). -/
def carryOut (a b : Byte) : Bool := decide (256 ≤ a.toNat + b.toNat)

/-- `(a - b) mod 256` (`42_alu.md` R130). -/
def subBytes (a b : Byte) : Byte := BitVec.ofInt 8 ((a.toNat : Int) - (b.toNat : Int))

/-- No borrow: the minuend is at least the subtrahend, equality included (`42_alu.md` R140). -/
def noBorrow (a b : Byte) : Bool := decide (b.toNat ≤ a.toNat)

/-- `s div 2` (`42_alu.md` R141). -/
def halve (s : Byte) : Byte := BitVec.ofNat 8 (s.toNat / 2)

/-- The bit a right shift loses, bit 0 (`42_alu.md` R141). -/
def lowBit (s : Byte) : Bool := s.getLsbD 0

/-- `(2 * s) mod 256` (`42_alu.md` R143). -/
def double (s : Byte) : Byte := BitVec.ofNat 8 (2 * s.toNat)

/-- The bit a left shift loses, bit 7 (`42_alu.md` R143). -/
def highBit (s : Byte) : Bool := s.getLsbD 7

/-- Writes a flag to `VF` and a result to `x[r]`, in the order of `VF_ORDER`; the order shows only where `r` is `VF`
(`42_alu.md` R132). -/
def writeFlagged (r : Reg) (result : Byte) (flag : Bool) (s : State) : State :=
  match s.cfg.flagOrder with
  | .flagThenResult => (s.setReg VF (flagByte flag)).setReg r result
  | .resultThenFlag => (s.setReg r result).setReg VF (flagByte flag)

end Sys2Proof.Machine
end

