-- ==== Sys2Proof/Machine/Operands.lean ====
section
/-! DEFINITION. The operand forms (`30_encoding.md` R73, `43_index_memory.md` R150). -/

namespace Sys2Proof.Machine

/-- A 12-bit address zero-extended to 16 bits (`30_encoding.md` R73). -/
def extendAddr (nnn : BitVec 12) : Word := nnn.zeroExtend 16

/-- The effective address `I + k`, a plain integer that is never reduced (`43_index_memory.md` R150, `20_memory.md` R62). -/
def effectiveAddr (s : State) (k : Nat) : Nat := s.index.toNat + k

/-- The target of `JPV0`: `(NNN + x[0]) mod 65536` (`41_flow.md` R114). -/
def offsetTarget (nnn : BitVec 12) (s : State) : Word := BitVec.ofNat 16 (nnn.toNat + (s.reg 0).toNat)

/-- The value a shift reads, by `SHIFT_SRC` (`42_alu.md` R141, R143). -/
def shiftOperand (x y : Reg) (s : State) : Byte :=
  match s.cfg.shiftSource with
  | .vx => s.reg x
  | .vy => s.reg y

/-- The low nibble of a register value, a digit or a key code (`43_index_memory.md` R153, `45_keypad_timers.md` R185). -/
def lowNibble (v : Byte) : Reg := ⟨v.toNat % 16, Nat.mod_lt _ (Nat.succ_pos 15)⟩

/-- The key a register value names, by `KEYSEL` (`45_keypad_timers.md` R185). -/
def selectKey (v : Byte) (s : State) : Except Fault Reg :=
  match s.cfg.keySelect with
  | .lowNibble => .ok (lowNibble v)
  | .faultAbove15 => if v.toNat ≤ 15 then .ok (lowNibble v) else .error (.keyCode v s.instrAddr)

/-- The address of the glyph of a digit (`43_index_memory.md` R153). -/
def glyphAddr (d : Reg) : Word := BitVec.ofNat 16 (fontBase + glyphStride * d.val)

/-- The index register plus a zero-extended register value, modulo 65536 (`43_index_memory.md` R152). -/
def indexPlus (v : Byte) (s : State) : Word := BitVec.ofNat 16 (s.index.toNat + v.toNat)

/-- The three decimal digits of a byte, hundreds first (`43_index_memory.md` R154). -/
def decimalDigits (v : Byte) : List Byte :=
  [BitVec.ofNat 8 (v.toNat / 100), BitVec.ofNat 8 (v.toNat / 10 % 10), BitVec.ofNat 8 (v.toNat % 10)]

end Sys2Proof.Machine
end

