-- ==== Sys2Proof/Machine/Alu.lean ====
section
/-! DEFINITION. The register load, arithmetic, logic, shift and random instructions (`42_alu.md`). Every operand is read
from the state before any write (R131). -/

namespace Sys2Proof.Machine

/-- `LD Vx, nn` (R133). -/
def execLd (x : Reg) (nn : Byte) (s : State) : Host.Outcome State Fault Refusal :=
  .next (s.setReg x nn)

/-- `ADD Vx, nn` (R134): no flag. -/
def execAdd (x : Reg) (nn : Byte) (s : State) : Host.Outcome State Fault Refusal :=
  .next (s.setReg x (addBytes (s.reg x) nn))

/-- `MOV Vx, Vy` (R135). -/
def execMov (x y : Reg) (s : State) : Host.Outcome State Fault Refusal :=
  .next (s.setReg x (s.reg y))

/-- `OR Vx, Vy` (R136): no flag. -/
def execOr (x y : Reg) (s : State) : Host.Outcome State Fault Refusal :=
  .next (s.setReg x (s.reg x ||| s.reg y))

/-- `AND Vx, Vy` (R137): no flag. -/
def execAnd (x y : Reg) (s : State) : Host.Outcome State Fault Refusal :=
  .next (s.setReg x (s.reg x &&& s.reg y))

/-- `XOR Vx, Vy` (R138): no flag. -/
def execXor (x y : Reg) (s : State) : Host.Outcome State Fault Refusal :=
  .next (s.setReg x (s.reg x ^^^ s.reg y))

/-- `ADDR Vx, Vy` (R139): `VF` takes the carry. -/
def execAddr (x y : Reg) (s : State) : Host.Outcome State Fault Refusal :=
  .next (writeFlagged x (addBytes (s.reg x) (s.reg y)) (carryOut (s.reg x) (s.reg y)) s)

/-- `SUB Vx, Vy` (R140): `VF` takes not-borrow. -/
def execSub (x y : Reg) (s : State) : Host.Outcome State Fault Refusal :=
  .next (writeFlagged x (subBytes (s.reg x) (s.reg y)) (noBorrow (s.reg x) (s.reg y)) s)

/-- `SHR Vx, Vy` (R141): `VF` takes the bit shifted out. -/
def execShr (x y : Reg) (s : State) : Host.Outcome State Fault Refusal :=
  .next (writeFlagged x (halve (shiftOperand x y s)) (lowBit (shiftOperand x y s)) s)

/-- `SUBN Vx, Vy` (R142): `VF` takes not-borrow of `VY - VX`. -/
def execSubn (x y : Reg) (s : State) : Host.Outcome State Fault Refusal :=
  .next (writeFlagged x (subBytes (s.reg y) (s.reg x)) (noBorrow (s.reg y) (s.reg x)) s)

/-- `SHL Vx, Vy` (R143): `VF` takes the bit shifted out. -/
def execShl (x y : Reg) (s : State) : Host.Outcome State Fault Refusal :=
  .next (writeFlagged x (double (shiftOperand x y s)) (highBit (shiftOperand x y s)) s)

/-- `RND Vx, nn` (R144): the random byte is an input of the step (R145, log 8). -/
def execRnd (x : Reg) (nn : Byte) (s : State) : Host.Outcome State Fault Refusal :=
  .next (s.setReg x (s.rand &&& nn))

end Sys2Proof.Machine
end

