-- ==== Sys2Proof/Machine/Display.lean ====
section
/-! DEFINITION. The display instructions (`44_display.md`). -/

namespace Sys2Proof.Machine

/-- `CLS` (R170): `VF` is not written. -/
def execCls (s : State) : Host.Outcome State Fault Refusal :=
  .next (s.setFrame FrameBuffer.blank)

/-- `DRW Vx, Vy, n` (R171): the coordinates are latched, the `n` sprite bytes are read from `I` upward, the pixels are
toggled row by row, and `VF` takes the collision flag (log 19 on reading the bytes first). -/
def execDrw (x y : Reg) (n : Nat) (s : State) : Host.Outcome State Fault Refusal :=
  match readBytes (effectiveAddr s 0) s n with
  | .error f => raise f
  | .ok bytes =>
    .next ((s.setFrame (drawRows (s.reg x).toNat (s.reg y).toNat bytes (s.fb, false)).1).setReg VF
      (flagByte (drawRows (s.reg x).toNat (s.reg y).toNat bytes (s.fb, false)).2))

end Sys2Proof.Machine
end

