-- ==== Sys2Proof/Machine/Flow.lean ====
section
/-! DEFINITION. The control-transfer instructions (`41_flow.md`). `pc` is the already-advanced program counter. -/

namespace Sys2Proof.Machine

/-- `JP nnn` (R111). -/
def execJp (nnn : BitVec 12) (s : State) : Host.Outcome State Fault Refusal :=
  .next (s.setPc (extendAddr nnn))

/-- `CALL nnn` (R112): the overflow check precedes every write. -/
def execCall (nnn : BitVec 12) (s : State) : Host.Outcome State Fault Refusal :=
  match s.push s.pc with
  | some t => .next (t.setPc (extendAddr nnn))
  | none => raise (.stackOverflow s.instrAddr)

/-- `RET` (R113): the underflow check precedes every write. -/
def execRet (s : State) : Host.Outcome State Fault Refusal :=
  match s.pop with
  | some (target, t) => .next (t.setPc target)
  | none => raise (.stackUnderflow s.instrAddr)

/-- `JPV0 nnn` (R114). -/
def execJpv0 (nnn : BitVec 12) (s : State) : Host.Outcome State Fault Refusal :=
  .next (s.setPc (offsetTarget nnn s))

/-- `SE Vx, nn` (R115). -/
def execSe (x : Reg) (nn : Byte) (s : State) : Host.Outcome State Fault Refusal :=
  .next (s.skipIf (s.reg x == nn))

/-- `SNE Vx, nn` (R116). -/
def execSne (x : Reg) (nn : Byte) (s : State) : Host.Outcome State Fault Refusal :=
  .next (s.skipIf (s.reg x != nn))

/-- `SER Vx, Vy` (R117). -/
def execSer (x y : Reg) (s : State) : Host.Outcome State Fault Refusal :=
  .next (s.skipIf (s.reg x == s.reg y))

/-- `SNER Vx, Vy` (R118). -/
def execSner (x y : Reg) (s : State) : Host.Outcome State Fault Refusal :=
  .next (s.skipIf (s.reg x != s.reg y))

end Sys2Proof.Machine
end

