-- ==== Sys2Proof/Machine/IndexMemory.lean ====
section
/-! DEFINITION. The index-register and memory instructions (`43_index_memory.md`). None of the memory instructions
writes `I` (R150). -/

namespace Sys2Proof.Machine

/-- `LDI nnn` (R151). -/
def execLdi (nnn : BitVec 12) (s : State) : Host.Outcome State Fault Refusal :=
  .next (s.setIndex (extendAddr nnn))

/-- `ADDI Vx` (R152): no flag, no fault. -/
def execAddi (x : Reg) (s : State) : Host.Outcome State Fault Refusal :=
  .next (s.setIndex (indexPlus (s.reg x) s))

/-- `FONT Vx` (R153): only the low nibble counts, and no memory is read. -/
def execFont (x : Reg) (s : State) : Host.Outcome State Fault Refusal :=
  .next (s.setIndex (glyphAddr (lowNibble (s.reg x))))

/-- `BCD Vx` (R154): the hundreds at `I`, the tens at `I + 1`, the units at `I + 2`. -/
def execBcd (x : Reg) (s : State) : Host.Outcome State Fault Refusal :=
  finish (writeBytes (effectiveAddr s 0) (decimalDigits (s.reg x)) s)

/-- `STM Vx` (R155): `V0` at the lowest address. -/
def execStm (x : Reg) (s : State) : Host.Outcome State Fault Refusal :=
  finish (writeBytes (effectiveAddr s 0) (s.regsUpTo x) s)

/-- `LDM Vx` (R156): the lowest address into `V0`. -/
def execLdm (x : Reg) (s : State) : Host.Outcome State Fault Refusal :=
  match readBytes (effectiveAddr s 0) s (x.val + 1) with
  | .ok bytes => .next (s.loadRegs bytes)
  | .error f => raise f

end Sys2Proof.Machine
end

