-- ==== Sys2Proof/Machine/KeypadTimers.lean ====
section
/-! DEFINITION. The keypad and timer instructions (`45_keypad_timers.md`). -/

namespace Sys2Proof.Machine

/-- `SKP Vx` (R186). -/
def execSkp (x : Reg) (s : State) : Host.Outcome State Fault Refusal :=
  match selectKey (s.reg x) s with
  | .ok k => .next (s.skipIf (s.keyPressed k))
  | .error f => raise f

/-- `SKNP Vx` (R187). -/
def execSknp (x : Reg) (s : State) : Host.Outcome State Fault Refusal :=
  match selectKey (s.reg x) s with
  | .ok k => .next (s.skipIf (!s.keyPressed k))
  | .error f => raise f

/-- `WKEY Vx` (R188): only the wait state changes; the key arrives in a later step (`resume`). -/
def execWkey (x : Reg) (s : State) : Host.Outcome State Fault Refusal :=
  .next (s.setWait (.awaiting x))

/-- `LDDT Vx` (R189): the value before this step's decrement. -/
def execLddt (x : Reg) (s : State) : Host.Outcome State Fault Refusal :=
  .next (s.setReg x s.dt)

/-- `STDT Vx` (R190). -/
def execStdt (x : Reg) (s : State) : Host.Outcome State Fault Refusal :=
  .next (s.setDelay (s.reg x))

/-- `STST Vx` (R191). -/
def execStst (x : Reg) (s : State) : Host.Outcome State Fault Refusal :=
  .next (s.setSound (s.reg x))

end Sys2Proof.Machine
end

