-- ==== Sys2Proof/Machine/Dispatch.lean ====
section
/-! DEFINITION. The meaning of every instruction, one arm a constructor (`40_step_cycle.md` R95). The state given to exec
has its program counter already advanced; the timer phase is the step's, not exec's. -/

namespace Sys2Proof.Machine

/-- Applies exactly one operation's effect (`40_step_cycle.md` R95). -/
def exec (i : Instr) (s : State) : Host.Outcome State Fault Refusal :=
  match i with
  | .cls => Sys2Proof.Machine.execCls s
  | .ret => Sys2Proof.Machine.execRet s
  | .jp nnn => Sys2Proof.Machine.execJp nnn s
  | .call nnn => Sys2Proof.Machine.execCall nnn s
  | .se x nn => Sys2Proof.Machine.execSe x nn s
  | .sne x nn => Sys2Proof.Machine.execSne x nn s
  | .ser x y => Sys2Proof.Machine.execSer x y s
  | .ld x nn => Sys2Proof.Machine.execLd x nn s
  | .add x nn => Sys2Proof.Machine.execAdd x nn s
  | .mov x y => Sys2Proof.Machine.execMov x y s
  | .or x y => Sys2Proof.Machine.execOr x y s
  | .and x y => Sys2Proof.Machine.execAnd x y s
  | .xor x y => Sys2Proof.Machine.execXor x y s
  | .addr x y => Sys2Proof.Machine.execAddr x y s
  | .sub x y => Sys2Proof.Machine.execSub x y s
  | .shr x y => Sys2Proof.Machine.execShr x y s
  | .subn x y => Sys2Proof.Machine.execSubn x y s
  | .shl x y => Sys2Proof.Machine.execShl x y s
  | .sner x y => Sys2Proof.Machine.execSner x y s
  | .ldi nnn => Sys2Proof.Machine.execLdi nnn s
  | .jpv0 nnn => Sys2Proof.Machine.execJpv0 nnn s
  | .rnd x nn => Sys2Proof.Machine.execRnd x nn s
  | .drw x y n => Sys2Proof.Machine.execDrw x y n s
  | .skp x => Sys2Proof.Machine.execSkp x s
  | .sknp x => Sys2Proof.Machine.execSknp x s
  | .lddt x => Sys2Proof.Machine.execLddt x s
  | .wkey x => Sys2Proof.Machine.execWkey x s
  | .stdt x => Sys2Proof.Machine.execStdt x s
  | .stst x => Sys2Proof.Machine.execStst x s
  | .addi x => Sys2Proof.Machine.execAddi x s
  | .font x => Sys2Proof.Machine.execFont x s
  | .bcd x => Sys2Proof.Machine.execBcd x s
  | .stm x => Sys2Proof.Machine.execStm x s
  | .ldm x => Sys2Proof.Machine.execLdm x s

end Sys2Proof.Machine
end

