-- ==== Sys2Proof/Machine/Cycle.lean ====
section
/-! DEFINITION. The parts of a step (`40_step_cycle.md` R90 to R100): the fetch, the running step, the key-wait step. -/

namespace Sys2Proof.Machine

/-- The end of a completed step: the timer phase (R96), and the step's inputs are used up. -/
def endStep (s : State) : State := s.timerPhase.nextInput

/-- What becomes of an instruction's outcome: the timer phase follows unless it faulted (R96, R98). -/
def afterExec : Host.Outcome State Fault Refusal → Host.Outcome State Fault Refusal
  | .next t => .next (endStep t)
  | .fault f => .fault f
  | .refused r => .refused r

/-- Decoding and executing a fetched word; an illegal word faults with the address it was fetched from (R95). -/
def execWord (w : Word) (s : State) : Host.Outcome State Fault Refusal :=
  match decodeWord w with
  | .ok i => exec i s.advance
  | .error _ => raise (.illegalOpcode w s.pc)

/-- A step in the `Running` state: fetch, advance, decode, execute, timers (R93 to R96). -/
def runStep (s : State) : Host.Outcome State Fault Refusal :=
  match readWord s.pc.toNat s with
  | .ok w => afterExec (execWord w s)
  | .error f => raise f

/-- A resuming wait step: the key code goes to `x[r]`, the machine runs again, the timer phase follows (R91). -/
def resume (r k : Reg) (s : State) : State :=
  endStep ((s.setReg r (BitVec.ofNat 8 k.val)).setWait .running)

/-- An idle wait step: nothing changes and nothing beeps; only under `WAIT_TICKS_TIMERS` does the timer phase run (R91). -/
def idle (s : State) : State :=
  if s.cfg.waitTicksTimers then endStep s else ({ s with beep := false } : State).nextInput

/-- A step in the `Awaiting(r)` state (R91, R92). -/
def waitStep (r : Reg) (s : State) : Host.Outcome State Fault Refusal :=
  match s.lowestPressed with
  | some k => .next (resume r k s)
  | none => .next (idle s)

/-- One step, the machine's only transition (R90); a faulted machine reports its fault again (R99). -/
def stepOnce (s : State) : Host.Outcome State Fault Refusal :=
  match s.fault with
  | some f => .fault f
  | none =>
    match s.wait with
    | .awaiting r => waitStep r s
    | .running => runStep s

/-- The instruction whose word is `w` placed where the next step fetches, in a machine that fetches: running and not
faulted. Where the two bytes at `pc` are not both inside memory no instruction can stand there, and memory is left as it is
(log 17). -/
def placeFetchWord (w : Word) (s : State) : State :=
  let t : State := { s with wait := .running, fault := none }
  if s.pc.toNat + 1 < s.cfg.memSize then t.pokeAll s.pc.toNat (wordBytes w) else t

end Sys2Proof.Machine
end

