-- ==== Sys2Proof/Machine/Step.lean ====
section
/-! DEFINITION. The step of the machine (`40_step_cycle.md` R90), and the placing of one instruction word for it. -/

namespace Sys2Proof.Machine

/-- One step of the machine (`40_step_cycle.md` R90). -/
def step (s : State) : Host.Outcome State Fault Refusal := stepOnce s

/-- The state with an instruction of the opcode table's numbering stored where step fetches next (log 17). -/
def State.withFetchWord (s : State) (nbits w : Nat) : State := placeFetchWord (tableWord nbits w) s

end Sys2Proof.Machine
end

