-- ==== Sys2Proof/Machine/HostInterface.lean ====
section
/-! DEFINITION. What the host can do to the machine (`60_exceptions.md` R212 to R217, `20_memory.md` R60,
`70_reset_and_hazards.md` R232). -/

namespace Sys2Proof.Machine

/-- `load(base, bytes)`: the check on the total length precedes any copy (`20_memory.md` R60). -/
def load (base : Nat) (bytes : List Byte) (s : State) : Except Fault State :=
  if base + bytes.length ≤ s.cfg.memSize then .ok (s.pokeAll base bytes)
  else .error (.capacityExceeded base bytes.length)

/-- Construction, then the host's load of the ROM at `PROG_BASE` (`70_reset_and_hazards.md` R232). -/
def boot (c : Config) (rom : List Byte) : Except Fault State :=
  load c.progBase.toNat rom (State.resetWith c)

/-- `takeDrawPending()`: the flag, and the state with it cleared (`60_exceptions.md` R214). -/
def takeDrawPending (s : State) : Bool × State := (s.drawPending, { s with drawPending := false })

/-- The host sets the key levels and random bytes of the coming steps (`60_exceptions.md` R213, R217, log 8). -/
def State.supply (s : State) (inputs : List StepInput) : State := { s with inputs := inputs }

/-- One tick as the host sees it (`60_exceptions.md` R216): the machine afterwards, and the fault if the step failed. A
faulting step leaves the fault recorded (`40_step_cycle.md` R98), and a tick on a faulted machine changes nothing (R99). -/
def hostTick (s : State) : State × Option Fault :=
  match s.fault with
  | some f => (s, some f)
  | none =>
    match step s with
    | .next t => (t, none)
    | .fault f => (recordFault f s, some f)
    | .refused _ => (s, none)

end Sys2Proof.Machine
end

