-- ==== Sys2Proof/Safety.lean ====
section
/-! DEFINITION. The terms claims are stated in: the components of the state one by one, what a step may write, the
invariant of every reachable state, the runs the host can bring about, and what a sprite covers. -/

namespace Sys2Proof.Machine

/-- A component of the state, the smallest piece an instruction can write: one register, one stack slot, one pixel, one
byte of memory, or one of the other fields (`10_state.md` R20). -/
inductive Field where
  | v (r : Reg)
  | index
  | pc
  | slot (k : Fin 16)
  | sp
  | delay
  | sound
  | wait
  | drawPending
  | pixel (x : Fin 64) (y : Fin 32)
  | byte (a : Nat)
  | fault
  | beep
  | inputs
  | tick
  | cfg
  deriving DecidableEq, Repr

/-- The two states agree on a component. -/
def Field.Same (s t : State) : Field → Prop
  | .v r => t.reg r = s.reg r
  | .index => t.index = s.index
  | .pc => t.pc = s.pc
  | .slot k => t.stack[k] = s.stack[k]
  | .sp => t.sp = s.sp
  | .delay => t.dt = s.dt
  | .sound => t.st = s.st
  | .wait => t.wait = s.wait
  | .drawPending => t.drawPending = s.drawPending
  | .pixel x y => FrameBuffer.pixel t.fb x y = FrameBuffer.pixel s.fb x y
  | .byte a => t.peek a = s.peek a
  | .fault => t.fault = s.fault
  | .beep => t.beep = s.beep
  | .inputs => t.inputs = s.inputs
  | .tick => t.tick = s.tick
  | .cfg => t.cfg = s.cfg

/-- The frame of an instruction: from `s` to `t` every component outside `written` is unchanged. -/
def OnlyWrites (written : Field → Prop) (s t : State) : Prop := ∀ f, ¬ written f → Field.Same s t f

/-- The components of a list. -/
def among (l : List Field) (f : Field) : Prop := f ∈ l

/-- An instruction that writes a result to `x[r]` and a flag to `VF`: both arrive where `r` is not `VF`; where it is, the
later write of `VF_ORDER` stays (`42_alu.md` R132). Nothing else is written. -/
def ResultAndFlag (r : Reg) (result flag : Byte) (s t : State) : Prop :=
  (r ≠ VF → t.reg r = result ∧ t.reg VF = flag) ∧
  (r = VF → s.cfg.flagOrder = .flagThenResult → t.reg VF = result) ∧
  (r = VF → s.cfg.flagOrder = .resultThenFlag → t.reg VF = flag) ∧
  OnlyWrites (among [.v r, .v VF]) s t

/-- The word at the program counter: the byte at `pc` is the high byte (`20_memory.md` R55). -/
def fetched (s : State) : Word := s.peek s.pc.toNat ++ s.peek (s.pc.toNat + 1)

/-- `k` is the first of the offsets below `n` whose effective address is outside memory (`60_exceptions.md` R201). -/
def FirstOutside (s : State) (n k : Nat) : Prop :=
  k < n ∧ s.cfg.memSize ≤ effectiveAddr s k ∧ ∀ j, j < k → effectiveAddr s j < s.cfg.memSize

/-- The fault an instruction can meet by itself, of one kind an instruction (`60_exceptions.md` R208). -/
def OwnFault (i : Instr) (s : State) (f : Fault) : Prop :=
  (∃ nnn, i = .call nnn ∧ s.sp = 16 ∧ f = .stackOverflow s.instrAddr) ∨
  (i = .ret ∧ s.sp = 0 ∧ f = .stackUnderflow s.instrAddr) ∨
  (∃ x y n k, i = .drw x y n ∧ FirstOutside s n k ∧ f = .outOfBounds (effectiveAddr s k) .read) ∨
  (∃ x k, i = .bcd x ∧ FirstOutside s 3 k ∧ f = .outOfBounds (effectiveAddr s k) .write) ∨
  (∃ x k, i = .stm x ∧ FirstOutside s (x.val + 1) k ∧ f = .outOfBounds (effectiveAddr s k) .write) ∨
  (∃ x k, i = .ldm x ∧ FirstOutside s (x.val + 1) k ∧ f = .outOfBounds (effectiveAddr s k) .read)

/-- Memory is in canonical form (log 6). -/
def MemoryCanonical (s : State) : Prop := Memory.wf s.cfg s.mem

/-- Every return address held is at most `MEM_SIZE` (`41_flow.md` R113: "the popped value is whatever `CALL` pushed, at
most `MEM_SIZE`"). -/
def StackInMemory (s : State) : Prop := ∀ k : Fin 16, k.val < s.sp.val → s.stack[k].toNat ≤ s.cfg.memSize

/-- The program counter is one a completed step can leave: at most two past memory, or the largest target of `JPV0`
(`10_state.md` R26). -/
def PcBounded (s : State) : Prop := s.pc.toNat ≤ max 0x10FE (s.cfg.memSize + 2)

/-- The invariant of the machine. -/
structure Inv (s : State) : Prop where
  memory : MemoryCanonical s
  stack : StackInMemory s
  pc : PcBounded s

/-- Every state of a run some host can bring about (`60_exceptions.md` R217): boot with a ROM that fits, then any
interleaving of completed steps, changes of the inputs and `takeDrawPending`. A state after a fault is none: "a faulted state
is never a final state of a run", and no claim may depend on what it holds (`40_step_cycle.md` R98). -/
inductive Reachable : State → Prop where
  | boot (c : Config) (rom : List Byte) (s : State) : boot c rom = .ok s → Reachable s
  | tick (s t : State) : Reachable s → step s = .next t → Reachable t
  | supply (s : State) (inputs : List StepInput) : Reachable s → Reachable (s.supply inputs)
  | takeDraw (s : State) : Reachable s → Reachable (takeDrawPending s).2

/-- Does the sprite at column `vx` and row `vy` have a set bit that falls on pixel `(x, y)`? Column `col` and row `row` of
the sprite fall on column `(vx + col) mod 64` and row `(vy + row) mod 32` (`44_display.md` R172, R173). -/
def Covers (vx vy : Nat) (bytes : List Byte) (x : Fin 64) (y : Fin 32) : Prop :=
  ∃ col row, ∃ b, col < 8 ∧ bytes[row]? = some b ∧ b.getLsbD (7 - col) = true ∧ (vx + col) % 64 = x.val ∧
    (vy + row) % 32 = y.val

/-- The `n` bytes of memory from `a` upward. -/
def bytesFrom (s : State) (a n : Nat) : List Byte := (List.range n).map fun k => s.peek (a + k)

/-- The state with `drawPending` hidden. -/
def hideDrawFlag (s : State) : State := { s with drawPending := false }

/-- The state with the sound timer and its output hidden. -/
def hideSound (s : State) : State := { s with st := 0, beep := false }

/-- What is seen of an outcome when part of the state is hidden. -/
def seenThrough (hide : State → State) : Host.Outcome State Fault Refusal → Host.Outcome State Fault Refusal
  | .next t => .next (hide t)
  | .fault f => .fault f
  | .refused r => .refused r

end Sys2Proof.Machine
end

