-- ==== Sys2Proof/Certificates/Slice0/Obligations.lean ====
section
/-! DEFINITION. The statements for the provers, from the numbered rules of `spec/`. In every statement about `exec`, the
program counter of the state is already advanced, as the instruction rules read it (`40_step_cycle.md` R94, R95). The hex
digits of every word but `6XNN` and `8XY4` are the spec's general knowledge (`30_encoding.md` R82, log 7). -/

open Sys2Proof Sys2Proof.Machine

/-! ### Encoding -/

/-- `30_encoding.md` R81 and the decode vectors: worked words. The digits other than `6XNN` and `8XY4` are the spec's own
choice (log 7). -/
def Obligations.WorkedWordsDecode : Prop :=
  decodeTableWord 16 0x6005 = some (.ld 0 0x05) ∧ decodeTableWord 16 0x6105 = some (.ld 1 0x05) ∧
  decodeTableWord 16 0x8014 = some (.addr 0 1) ∧ decodeTableWord 16 0xD125 = some (.drw 1 2 5) ∧
  decodeTableWord 16 0xF31E = some (.addi 3) ∧ decodeTableWord 16 0xA2F0 = some (.ldi 0x2F0) ∧
  decodeTableWord 16 0xEBA1 = some (.sknp 11) ∧ decodeTableWord 16 0x00EE = some .ret ∧
  decodeTableWord 16 0x5120 = some (.ser 1 2) ∧ decodeTableWord 16 0x5121 = none ∧ decodeTableWord 16 0x0000 = none

/-- `30_encoding.md` R72, R75: decoding the bytes of a well-formed instruction's word gives the instruction back, with every
operand at every value, and leaves the bytes after it. -/
def Obligations.DecodeReadsBackEncode : Prop :=
  ∀ (i : Instr) (rest : List Byte), WellFormed i = true →
    decodeWord (encode i) = .ok i ∧ decode (wordBytes (encode i) ++ rest) = .ok (i, rest)

/-- `30_encoding.md` R74, R75: each word has one meaning, and no bit of it is dropped. -/
def Obligations.EncodeRebuildsDecodedWord : Prop :=
  ∀ (w : Word) (i : Instr), decodeWord w = .ok i → WellFormed i = true ∧ encode i = w

/-- `30_encoding.md` R77, the spec's decision D6 (log 7): the illegal words are exactly the listed ones. -/
def Obligations.IllegalWordsAreTheListedOnes : Prop :=
  ∀ w : Word, decodeWord w = .error (.illegal w) ↔
    (w.toNat < 0x1000 ∧ w ≠ 0x00E0 ∧ w ≠ 0x00EE) ∨
    (w.toNat / 0x1000 = 5 ∧ w.toNat % 16 ≠ 0) ∨
    (w.toNat / 0x1000 = 8 ∧ w.toNat % 16 ∈ [8, 9, 10, 11, 12, 13, 15]) ∨
    (w.toNat / 0x1000 = 9 ∧ w.toNat % 16 ≠ 0) ∨
    (w.toNat / 0x1000 = 14 ∧ w.toNat % 256 ∉ [0x9E, 0xA1]) ∨
    (w.toNat / 0x1000 = 15 ∧ w.toNat % 256 ∉ [0x07, 0x0A, 0x15, 0x18, 0x1E, 0x29, 0x33, 0x55, 0x65])

/-! ### Memory -/

/-- `20_memory.md` R52, R53: the byte accesses, their bounds, and that a write changes that byte and nothing else. -/
def Obligations.ByteAccessesAreBoundsChecked : Prop :=
  ∀ (a : Nat) (v : Byte) (s : State),
    (a < s.cfg.memSize → readByte a s = .ok (s.peek a)) ∧
    (s.cfg.memSize ≤ a → readByte a s = .error (.outOfBounds a .read)) ∧
    (a < s.cfg.memSize → ∃ t, writeByte a v s = .ok t ∧ t.peek a = v ∧ OnlyWrites (among [.byte a]) s t) ∧
    (s.cfg.memSize ≤ a → writeByte a v s = .error (.outOfBounds a .write))

/-- `20_memory.md` R54, R55: the instruction read is big-endian and needs both bytes inside memory. -/
def Obligations.InstructionReadIsBigEndian : Prop :=
  ∀ (a : Nat) (s : State),
    (a + 1 < s.cfg.memSize →
      ∃ w, readWord a s = .ok w ∧ w.toNat = (s.peek a).toNat * 256 + (s.peek (a + 1)).toNat) ∧
    (s.cfg.memSize ≤ a + 1 → readWord a s = .error (.outOfBounds a .fetch))

/-- `20_memory.md` R65: an instruction stored by two byte writes where the machine fetches next is the one fetched, high byte at
the lower address; no fence is needed. -/
def Obligations.StoredInstructionIsFetched : Prop :=
  ∀ (s : State) (hi lo : Byte), s.pc.toNat + 1 < s.cfg.memSize →
    ∃ t u, writeByte s.pc.toNat hi s = .ok t ∧ writeByte (s.pc.toNat + 1) lo t = .ok u ∧
      readWord u.pc.toNat u = .ok (joinBytes hi lo)

/-- `20_memory.md` R60: `load` copies its bytes, or fails before any copy. That the check precedes the copy is the spec's
inference ("[derived: the check is on the total length, so it precedes any copy]"). -/
def Obligations.LoadCopiesOrFails : Prop :=
  ∀ (base : Nat) (bytes : List Byte) (s : State),
    (base + bytes.length ≤ s.cfg.memSize → ∃ t, load base bytes s = .ok t ∧
      (∀ k v, bytes[k]? = some v → t.peek (base + k) = v) ∧
      OnlyWrites (fun f => ∃ k, k < bytes.length ∧ f = .byte (base + k)) s t) ∧
    (s.cfg.memSize < base + bytes.length → load base bytes s = .error (.capacityExceeded base bytes.length))

/-! ### Reset and the host -/

/-- `70_reset_and_hazards.md` R231: what reset leaves, for every configuration, and the default entry point. The values of
`I`, the stack slots, `drawPending`, `fault`, unloaded memory and the number 0x200 are the spec's decisions (logs 2, 6, 10,
13, 16 and 20). -/
def Obligations.ResetLeavesListedValues : Prop :=
  (∀ c : Config,
    (∀ r, (State.resetWith c).reg r = 0) ∧ (State.resetWith c).index = 0 ∧ (State.resetWith c).pc = c.progBase ∧
    (∀ k : Fin 16, (State.resetWith c).stack[k] = 0) ∧ (State.resetWith c).sp = 0 ∧ (State.resetWith c).dt = 0 ∧
    (State.resetWith c).st = 0 ∧ (State.resetWith c).wait = .running ∧ (State.resetWith c).drawPending = false ∧
    (∀ x y, FrameBuffer.pixel (State.resetWith c).fb x y = false) ∧ (State.resetWith c).fault = none ∧
    (∀ a v, c.font[a]? = some v → (State.resetWith c).peek a = v) ∧
    (∀ a, c.font.length ≤ a → (State.resetWith c).peek a = 0)) ∧
  State.reset = State.resetWith defaultConfig ∧ State.reset.pc = 0x200 ∧ defaultConfig.font.length = 80

/-- `60_exceptions.md` R214: `takeDrawPending` returns the flag and clears it, and nothing else. -/
def Obligations.TakeDrawPendingReturnsAndClears : Prop :=
  ∀ s : State, (takeDrawPending s).1 = s.drawPending ∧ (takeDrawPending s).2.drawPending = false ∧
    OnlyWrites (among [.drawPending]) s (takeDrawPending s).2

/-! ### The step -/

/-- `40_step_cycle.md` R90, R94 to R96, R98: a step of a running machine whose fetched word decodes advances `pc` by 2, runs
`exec` of the instruction on that state, and ends with the timer phase (`endStep`), unless the instruction faults. The
decoded instruction is well-formed. -/
def Obligations.StepRunsDecodedInstruction : Prop :=
  ∀ (s : State) (i : Instr), s.fault = none → s.wait = .running → s.pc.toNat + 1 < s.cfg.memSize →
    decodeWord (fetched s) = .ok i →
    WellFormed i = true ∧ s.advance.pc = s.pc + 2 ∧ OnlyWrites (among [.pc]) s s.advance ∧
    (∀ t, exec i s.advance = .next t → step s = .next (endStep t)) ∧
    (∀ f, exec i s.advance = .fault f → step s = .fault f)

/-- `40_step_cycle.md` R93: a running step fetches the word at `pc`, and faults in the fetch exactly where `pc + 1` is not
inside memory. -/
def Obligations.FetchFaultsExactlyOutsideMemory : Prop :=
  ∀ s : State, s.fault = none → s.wait = .running →
    (s.pc.toNat + 1 < s.cfg.memSize → step s = afterExec (execWord (fetched s) s)) ∧
    (step s = .fault (.outOfBounds s.pc.toNat .fetch) ↔ s.cfg.memSize ≤ s.pc.toNat + 1)

/-- `60_exceptions.md` R204, the spec's decision D6 (log 7): a fetched word that is no instruction faults, with the word and
the address it was fetched from. -/
def Obligations.IllegalWordFaults : Prop :=
  ∀ s : State, s.fault = none → s.wait = .running → s.pc.toNat + 1 < s.cfg.memSize →
    decodeWord (fetched s) = .error (.illegal (fetched s)) → step s = .fault (.illegalOpcode (fetched s) s.pc)

/-- `40_step_cycle.md` R96, R97: the end of a completed step counts both timers down, floored at zero, and beeps exactly when
`ST` was 1; of the rest only the model's input fields move on (log 8). -/
def Obligations.EndOfStepCountsTimersDown : Prop :=
  ∀ s : State, (endStep s).dt.toNat = s.dt.toNat - 1 ∧ (endStep s).st.toNat = s.st.toNat - 1 ∧
    ((endStep s).beep = true ↔ s.st.toNat = 1) ∧
    OnlyWrites (among [.delay, .sound, .beep, .inputs, .tick]) s (endStep s)

/-- `40_step_cycle.md` R91, R92: the key-wait step, idle under either value of `WAIT_TICKS_TIMERS` and resuming with the lowest
pressed key. The default of the parameter and the choice of the lowest key are the spec's decisions D24 and D12 (logs 5 and
9). -/
def Obligations.KeyWaitStepIdlesOrResumes : Prop :=
  ∀ (s : State) (r : Reg), s.fault = none → s.wait = .awaiting r →
    ((∀ k, s.keyPressed k = false) → s.cfg.waitTicksTimers = false →
      ∃ t, step s = .next t ∧ t.beep = false ∧ OnlyWrites (among [.beep, .inputs, .tick]) s t) ∧
    ((∀ k, s.keyPressed k = false) → s.cfg.waitTicksTimers = true → step s = .next (endStep s)) ∧
    (∀ k, s.keyPressed k = true → (∀ j, j < k → s.keyPressed j = false) →
      ∃ t, step s = .next t ∧ (t.reg r).toNat = k.val ∧ t.wait = .running ∧ t.dt.toNat = s.dt.toNat - 1 ∧
        t.st.toNat = s.st.toNat - 1 ∧ (t.beep = true ↔ s.st.toNat = 1) ∧
        OnlyWrites (among [.v r, .wait, .delay, .sound, .beep, .inputs, .tick]) s t)

/-- `10_state.md` R31: the machine suspends only by `WKEY`, and runs again only when a key is seen pressed. -/
def Obligations.OnlyWkeySuspendsOnlyAKeyResumes : Prop :=
  State.reset.wait = .running ∧
  ∀ s t : State, step s = .next t →
    (∀ r, s.wait = .running → t.wait = .awaiting r → decodeWord (fetched s) = .ok (.wkey r)) ∧
    (∀ r, s.wait = .awaiting r → t.wait = .running → ∃ k, s.keyPressed k = true ∧ (t.reg r).toNat = k.val) ∧
    (∀ r q, s.wait = .awaiting r → t.wait = .awaiting q → q = r ∧ ∀ k, s.keyPressed k = false)

/-- `40_step_cycle.md` R98, R99, the spec's decisions D15 and D22 (log 10): a fault is recorded by the tick that met it, which emits
no beep, and a faulted machine reports it again and does not change. -/
def Obligations.FaultedMachineStaysFaulted : Prop :=
  ∀ (s : State) (f : Fault),
    (s.fault = some f → step s = .fault f ∧ hostTick s = (s, some f)) ∧
    (step s = .fault f → (hostTick s).2 = some f ∧ (hostTick s).1.fault = some f ∧ step (hostTick s).1 = .fault f ∧
      (s.fault = none → (hostTick s).1.beep = false))

/-- `60_exceptions.md` R208: a step that faults on a healthy machine is a running step, and the fault is the first in the
order fetch, illegal word, the instruction's own single kind at the lowest offending offset. It assumes the default `KEYSEL`
(the spec's decision D11, log 4); that an illegal word faults is decision D6 (log 7), that the stack faults are defined D16
(log 13). -/
def Obligations.FaultsComeInTheOrderOfTheStep : Prop :=
  ∀ (s : State) (f : Fault), s.fault = none → s.cfg.keySelect = .lowNibble → step s = .fault f →
    s.wait = .running ∧
    ((s.cfg.memSize ≤ s.pc.toNat + 1 ∧ f = .outOfBounds s.pc.toNat .fetch) ∨
     (s.pc.toNat + 1 < s.cfg.memSize ∧ decodeWord (fetched s) = .error (.illegal (fetched s)) ∧
       f = .illegalOpcode (fetched s) s.pc) ∨
     (s.pc.toNat + 1 < s.cfg.memSize ∧ ∃ i, decodeWord (fetched s) = .ok i ∧ OwnFault i s.advance f))

/-- `40_step_cycle.md` R90: the result of an instruction or a step is a next state or a fault; nothing is refused. -/
def Obligations.NothingIsRefused : Prop :=
  (∀ (i : Instr) (s : State) (r : Refusal), exec i s ≠ .refused r) ∧ ∀ (s : State) (r : Refusal), step s ≠ .refused r

/-! ### Which instructions write which state -/

/-- `20_memory.md` R63, `10_state.md` R32, R33: only `STM` and `BCD` write memory; only `CLS` and `DRW` change pixels or set the
redraw flag. -/
def Obligations.WritersOfMemoryAndPixels : Prop :=
  ∀ (i : Instr) (s t : State), exec i s = .next t →
    ((∀ x, i ≠ .stm x ∧ i ≠ .bcd x) → t.mem = s.mem) ∧
    (i ≠ .cls → (∀ x y n, i ≠ .drw x y n) → t.fb = s.fb ∧ t.drawPending = s.drawPending)

/-- `10_state.md` R24, R27, R29 to R31: `I` is written by `LDI`, `ADDI`, `FONT` only, the stack by `CALL` and `RET`, `DT` by `STDT`,
`ST` by `STST`, the wait state by `WKEY`. -/
def Obligations.WritersOfIndexStackTimersWait : Prop :=
  ∀ (i : Instr) (s t : State), exec i s = .next t →
    ((∀ nnn x, i ≠ .ldi nnn ∧ i ≠ .addi x ∧ i ≠ .font x) → t.index = s.index) ∧
    ((∀ nnn, i ≠ .call nnn) → t.stack = s.stack ∧ (i ≠ .ret → t.sp = s.sp)) ∧
    ((∀ x, i ≠ .stdt x) → t.dt = s.dt) ∧ ((∀ x, i ≠ .stst x) → t.st = s.st) ∧
    ((∀ x, i ≠ .wkey x) → t.wait = s.wait)

/-- `10_state.md` R22, with the spec's decision D14 (log 14): `VF` changes only by the six instructions that write a flag, or
where the instruction's own destination is `VF`. -/
def Obligations.WritersOfTheFlagRegister : Prop :=
  ∀ (i : Instr) (s t : State), exec i s = .next t → t.reg VF ≠ s.reg VF →
    (∃ x y, i = .addr x y ∨ i = .sub x y ∨ i = .shr x y ∨ i = .subn x y ∨ i = .shl x y) ∨
    (∃ x y n, i = .drw x y n) ∨
    (∃ nn, i = .ld VF nn ∨ i = .add VF nn ∨ i = .rnd VF nn) ∨
    (∃ y, i = .mov VF y ∨ i = .or VF y ∨ i = .and VF y ∨ i = .xor VF y) ∨ i = .lddt VF ∨ i = .ldm VF

/-- `10_state.md` R26: beyond the advance, only the jumps, the call, the return and the skips write `pc`, and a skip adds
exactly 2. -/
def Obligations.WritersOfTheProgramCounter : Prop :=
  ∀ (i : Instr) (s t : State), exec i s = .next t → t.pc ≠ s.pc →
    (∃ nnn, i = .jp nnn ∨ i = .call nnn ∨ i = .jpv0 nnn) ∨ i = .ret ∨
    (t.pc = s.pc + 2 ∧ ((∃ x nn, i = .se x nn ∨ i = .sne x nn) ∨ (∃ x y, i = .ser x y ∨ i = .sner x y) ∨
      ∃ x, i = .skp x ∨ i = .sknp x))

/-- `10_state.md` R35, R37 (logs 1, 8, 10 and 11): no instruction writes the configuration, the fault status, the sound output or
the inputs, and a completed step keeps the configuration and leaves a healthy machine. -/
def Obligations.NoInstructionWritesHostFields : Prop :=
  (∀ (i : Instr) (s t : State), exec i s = .next t → t.cfg = s.cfg ∧ t.fault = s.fault ∧ t.beep = s.beep ∧
    t.inputs = s.inputs ∧ t.tick = s.tick) ∧
  ∀ s t : State, step s = .next t → t.cfg = s.cfg ∧ t.fault = none ∧ t.inputs = s.inputs.tail ∧ t.tick = s.tick + 1

/-! ### Invariants and what cannot be observed -/

/-- The invariant holds at reset. -/
def Obligations.ResetMeetsTheInvariant : Prop := Inv State.reset

/-- Every completed step keeps the invariant: memory canonical (log 6), return addresses at most `MEM_SIZE` (`41_flow.md`
R113), `pc` bounded (`10_state.md` R26). -/
def Obligations.StepKeepsTheInvariant : Prop := ∀ s t : State, Inv s → step s = .next t → Inv t

/-- Whatever the configuration, the ROM that fits, and the host's inputs and reads, the invariant holds throughout a run of
completed steps (`60_exceptions.md` R216, R217). -/
def Obligations.ReachableStatesMeetTheInvariant : Prop := ∀ s : State, Reachable s → Inv s

/-- `10_state.md` R32: "No instruction reads it; it has no effect on execution": two states that differ only in `drawPending` step
alike. -/
def Obligations.DrawFlagHasNoEffectOnExecution : Prop :=
  ∀ s t : State, hideDrawFlag s = hideDrawFlag t →
    seenThrough hideDrawFlag (step s) = seenThrough hideDrawFlag (step t)

/-- `10_state.md` R30, R38 (c): the program never sees `ST`: two states that differ only in the sound timer and its output step
alike but for those two. -/
def Obligations.SoundTimerIsInvisibleToPrograms : Prop :=
  ∀ s t : State, hideSound s = hideSound t → seenThrough hideSound (step s) = seenThrough hideSound (step t)

/-! ### Control transfer (`41_flow.md`) -/

/-- R111. -/
def Obligations.JpWritesTheTarget : Prop :=
  ∀ (nnn : BitVec 12) (s : State), decodeWord (0x1#4 ++ nnn) = .ok (.jp nnn) ∧
    ∃ t, exec (.jp nnn) s = .next t ∧ t.pc.toNat = nnn.toNat ∧ OnlyWrites (among [.pc]) s t

/-- R112: the return address is the already-advanced `pc`; with sixteen held the call faults with its own address. -/
def Obligations.CallPushesTheReturnAddress : Prop :=
  ∀ (nnn : BitVec 12) (s : State), decodeWord (0x2#4 ++ nnn) = .ok (.call nnn) ∧
    (s.sp.val < 16 → ∃ t, exec (.call nnn) s = .next t ∧ t.pc.toNat = nnn.toNat ∧ t.sp.val = s.sp.val + 1 ∧
      (∀ k : Fin 16, k.val = s.sp.val → t.stack[k] = s.pc) ∧
      OnlyWrites (fun f => f = .pc ∨ f = .sp ∨ ∃ k : Fin 16, k.val = s.sp.val ∧ f = .slot k) s t) ∧
    (s.sp = 16 → exec (.call nnn) s = .fault (.stackOverflow (s.pc - 2)))

/-- R113: with none held the return faults with its own address. -/
def Obligations.RetPopsTheReturnAddress : Prop :=
  ∀ s : State, decodeWord 0x00EE#16 = .ok .ret ∧
    (0 < s.sp.val → ∃ t, exec .ret s = .next t ∧ t.sp.val + 1 = s.sp.val ∧
      (∀ k : Fin 16, k.val + 1 = s.sp.val → t.pc = s.stack[k]) ∧ OnlyWrites (among [.pc, .sp]) s t) ∧
    (s.sp = 0 → exec .ret s = .fault (.stackUnderflow (s.pc - 2)))

/-- R112, R113: "calling a subroutine then returning restores the program counter to the instruction immediately after the
call", whatever ran in between, as long as the stack is as the call left it. -/
def Obligations.ReturnAfterCallComesBack : Prop :=
  ∀ (nnn : BitVec 12) (s : State), s.sp.val < 16 → ∃ t, exec (.call nnn) s = .next t ∧
    ∀ u : State, u.stack = t.stack → u.sp = t.sp → ∃ v, exec .ret u = .next v ∧ v.pc = s.pc ∧ v.sp = s.sp

/-- R114: the register is always `V0`, and the sum is formed in 16 bits (the spec's decision D20, log 15). -/
def Obligations.Jpv0AddsRegisterZero : Prop :=
  ∀ (nnn : BitVec 12) (s : State), decodeWord (0xB#4 ++ nnn) = .ok (.jpv0 nnn) ∧
    ∃ t, exec (.jpv0 nnn) s = .next t ∧ t.pc.toNat = (nnn.toNat + (s.reg 0).toNat) % 65536 ∧
      OnlyWrites (among [.pc]) s t

/-- R115, R116. -/
def Obligations.ImmediateSkipsCompareARegister : Prop :=
  ∀ (x : Reg) (nn : Byte) (s : State),
    decodeWord (0x3#4 ++ nibble x ++ nn) = .ok (.se x nn) ∧ decodeWord (0x4#4 ++ nibble x ++ nn) = .ok (.sne x nn) ∧
    (∃ t, exec (.se x nn) s = .next t ∧ t.pc = (if s.reg x = nn then s.pc + 2 else s.pc) ∧
      OnlyWrites (among [.pc]) s t) ∧
    (∃ t, exec (.sne x nn) s = .next t ∧ t.pc = (if s.reg x = nn then s.pc else s.pc + 2) ∧
      OnlyWrites (among [.pc]) s t)

/-- R117, R118. -/
def Obligations.RegisterSkipsCompareTwoRegisters : Prop :=
  ∀ (x y : Reg) (s : State),
    decodeWord (0x5#4 ++ nibble x ++ nibble y ++ 0x0#4) = .ok (.ser x y) ∧
    decodeWord (0x9#4 ++ nibble x ++ nibble y ++ 0x0#4) = .ok (.sner x y) ∧
    (∃ t, exec (.ser x y) s = .next t ∧ t.pc = (if s.reg x = s.reg y then s.pc + 2 else s.pc) ∧
      OnlyWrites (among [.pc]) s t) ∧
    (∃ t, exec (.sner x y) s = .next t ∧ t.pc = (if s.reg x = s.reg y then s.pc else s.pc + 2) ∧
      OnlyWrites (among [.pc]) s t)

/-! ### Register and ALU instructions (`42_alu.md`) -/

/-- R133. -/
def Obligations.LdWritesTheImmediate : Prop :=
  ∀ (x : Reg) (nn : Byte) (s : State), decodeWord (0x6#4 ++ nibble x ++ nn) = .ok (.ld x nn) ∧
    ∃ t, exec (.ld x nn) s = .next t ∧ t.reg x = nn ∧ OnlyWrites (among [.v x]) s t

/-- R134: the sum wraps and no flag is written. -/
def Obligations.AddImmediateWrapsWithoutFlag : Prop :=
  ∀ (x : Reg) (nn : Byte) (s : State), decodeWord (0x7#4 ++ nibble x ++ nn) = .ok (.add x nn) ∧
    ∃ t, exec (.add x nn) s = .next t ∧ (t.reg x).toNat = ((s.reg x).toNat + nn.toNat) % 256 ∧
      OnlyWrites (among [.v x]) s t

/-- R135. -/
def Obligations.MovCopiesARegister : Prop :=
  ∀ (x y : Reg) (s : State), decodeWord (0x8#4 ++ nibble x ++ nibble y ++ 0x0#4) = .ok (.mov x y) ∧
    ∃ t, exec (.mov x y) s = .next t ∧ t.reg x = s.reg y ∧ OnlyWrites (among [.v x]) s t

/-- R136 to R138, bit by bit; that no flag is written is the spec's decision D14 (log 14). -/
def Obligations.LogicOperationsWorkBitwiseWithoutFlag : Prop :=
  ∀ (x y : Reg) (s : State),
    decodeWord (0x8#4 ++ nibble x ++ nibble y ++ 0x1#4) = .ok (.or x y) ∧
    decodeWord (0x8#4 ++ nibble x ++ nibble y ++ 0x2#4) = .ok (.and x y) ∧
    decodeWord (0x8#4 ++ nibble x ++ nibble y ++ 0x3#4) = .ok (.xor x y) ∧
    (∃ t, exec (.or x y) s = .next t ∧ OnlyWrites (among [.v x]) s t ∧
      ∀ b < 8, (t.reg x).getLsbD b = ((s.reg x).getLsbD b || (s.reg y).getLsbD b)) ∧
    (∃ t, exec (.and x y) s = .next t ∧ OnlyWrites (among [.v x]) s t ∧
      ∀ b < 8, (t.reg x).getLsbD b = ((s.reg x).getLsbD b && (s.reg y).getLsbD b)) ∧
    (∃ t, exec (.xor x y) s = .next t ∧ OnlyWrites (among [.v x]) s t ∧
      ∀ b < 8, (t.reg x).getLsbD b = ((s.reg x).getLsbD b ^^ (s.reg y).getLsbD b))

/-- R139; with `VF` as the destination, `VF_ORDER` decides (R132, the spec's decision D9, log 3). -/
def Obligations.AddRegistersCarriesIntoFlag : Prop :=
  ∀ (x y : Reg) (s : State), decodeWord (0x8#4 ++ nibble x ++ nibble y ++ 0x4#4) = .ok (.addr x y) ∧
    ∃ t, exec (.addr x y) s = .next t ∧
      ResultAndFlag x (BitVec.ofNat 8 (((s.reg x).toNat + (s.reg y).toNat) % 256))
        (if 256 ≤ (s.reg x).toNat + (s.reg y).toNat then 1 else 0) s t

/-- R140: the flag is 1 without a borrow, equality included; `VF_ORDER` as for `ADDR` (log 3). -/
def Obligations.SubtractSetsFlagWithoutBorrow : Prop :=
  ∀ (x y : Reg) (s : State), decodeWord (0x8#4 ++ nibble x ++ nibble y ++ 0x5#4) = .ok (.sub x y) ∧
    ∃ t, exec (.sub x y) s = .next t ∧
      ResultAndFlag x (BitVec.ofNat 8 ((256 + (s.reg x).toNat - (s.reg y).toNat) % 256))
        (if (s.reg y).toNat ≤ (s.reg x).toNat then 1 else 0) s t

/-- R142: `VY - VX` with the same flag convention; `VF_ORDER` as for `ADDR` (log 3). -/
def Obligations.ReverseSubtractSetsFlagWithoutBorrow : Prop :=
  ∀ (x y : Reg) (s : State), decodeWord (0x8#4 ++ nibble x ++ nibble y ++ 0x7#4) = .ok (.subn x y) ∧
    ∃ t, exec (.subn x y) s = .next t ∧
      ResultAndFlag x (BitVec.ofNat 8 ((256 + (s.reg y).toNat - (s.reg x).toNat) % 256))
        (if (s.reg x).toNat ≤ (s.reg y).toNat then 1 else 0) s t

/-- R141, R143, for both values of `SHIFT_SRC` (the default `VX` is the spec's decision D8) and of `VF_ORDER` (log 3). -/
def Obligations.ShiftsPutTheLostBitInFlag : Prop :=
  ∀ (x y : Reg) (s : State) (v : Byte),
    (s.cfg.shiftSource = .vx → v = s.reg x) → (s.cfg.shiftSource = .vy → v = s.reg y) →
    decodeWord (0x8#4 ++ nibble x ++ nibble y ++ 0x6#4) = .ok (.shr x y) ∧
    decodeWord (0x8#4 ++ nibble x ++ nibble y ++ 0xE#4) = .ok (.shl x y) ∧
    (∃ t, exec (.shr x y) s = .next t ∧
      ResultAndFlag x (BitVec.ofNat 8 (v.toNat / 2)) (BitVec.ofNat 8 (v.toNat % 2)) s t) ∧
    (∃ t, exec (.shl x y) s = .next t ∧
      ResultAndFlag x (BitVec.ofNat 8 (2 * v.toNat % 256)) (BitVec.ofNat 8 (v.toNat / 128)) s t)

/-- R144, R145: the byte the random source supplies in this step, ANDed with the immediate. The byte is the host's where it
has set one and a free value otherwise (log 8). -/
def Obligations.RndMasksTheRandomByte : Prop :=
  ∀ (x : Reg) (nn : Byte) (s : State), decodeWord (0xC#4 ++ nibble x ++ nn) = .ok (.rnd x nn) ∧
    ∃ t, exec (.rnd x nn) s = .next t ∧ OnlyWrites (among [.v x]) s t ∧
      (∀ i rest, s.inputs = i :: rest → t.reg x = i.random &&& nn) ∧
      (s.inputs = [] → t.reg x = Config.freeByte s.tick &&& nn)

/-! ### Index register and memory (`43_index_memory.md`) -/

/-- R151. -/
def Obligations.LdiWritesTheAddress : Prop :=
  ∀ (nnn : BitVec 12) (s : State), decodeWord (0xA#4 ++ nnn) = .ok (.ldi nnn) ∧
    ∃ t, exec (.ldi nnn) s = .next t ∧ t.index.toNat = nnn.toNat ∧ OnlyWrites (among [.index]) s t

/-- R152: the sum wraps at 16 bits (the spec's decision D20, log 15) and no flag is written. -/
def Obligations.AddiWrapsAtSixteenBits : Prop :=
  ∀ (x : Reg) (s : State), decodeWord (0xF#4 ++ nibble x ++ 0x1E#8) = .ok (.addi x) ∧
    ∃ t, exec (.addi x) s = .next t ∧ t.index.toNat = (s.index.toNat + (s.reg x).toNat) % 65536 ∧
      OnlyWrites (among [.index]) s t

/-- R153: only the low nibble of the register counts. -/
def Obligations.FontPointsAtTheGlyph : Prop :=
  ∀ (x : Reg) (s : State), decodeWord (0xF#4 ++ nibble x ++ 0x29#8) = .ok (.font x) ∧
    ∃ t, exec (.font x) s = .next t ∧ t.index.toNat = 5 * ((s.reg x).toNat % 16) ∧ OnlyWrites (among [.index]) s t

/-- R154: the three digits at `I`, `I + 1`, `I + 2`, and the fault at the first address outside memory. That `I` is unchanged is
the spec's decision D13 (log 14). -/
def Obligations.BcdStoresThreeDigits : Prop :=
  ∀ (x : Reg) (s : State), decodeWord (0xF#4 ++ nibble x ++ 0x33#8) = .ok (.bcd x) ∧
    (effectiveAddr s 2 < s.cfg.memSize → ∃ t, exec (.bcd x) s = .next t ∧
      (t.peek (effectiveAddr s 0)).toNat = (s.reg x).toNat / 100 ∧
      (t.peek (effectiveAddr s 1)).toNat = (s.reg x).toNat / 10 % 10 ∧
      (t.peek (effectiveAddr s 2)).toNat = (s.reg x).toNat % 10 ∧
      OnlyWrites (fun f => ∃ k, k < 3 ∧ f = .byte (effectiveAddr s k)) s t) ∧
    (∀ k, FirstOutside s 3 k → exec (.bcd x) s = .fault (.outOfBounds (effectiveAddr s k) .write))

/-- R155: `V0`..`VX` at `I` upward, and the fault at the first address outside memory. That `I` is unchanged is the spec's
decision D13 (log 14). -/
def Obligations.StmStoresTheRegisterBlock : Prop :=
  ∀ (x : Reg) (s : State), decodeWord (0xF#4 ++ nibble x ++ 0x55#8) = .ok (.stm x) ∧
    (effectiveAddr s x.val < s.cfg.memSize → ∃ t, exec (.stm x) s = .next t ∧
      (∀ k : Reg, k ≤ x → t.peek (effectiveAddr s k.val) = s.reg k) ∧
      OnlyWrites (fun f => ∃ k, k ≤ x.val ∧ f = .byte (effectiveAddr s k)) s t) ∧
    (∀ k, FirstOutside s (x.val + 1) k → exec (.stm x) s = .fault (.outOfBounds (effectiveAddr s k) .write))

/-- R156: `V0`..`VX` from `I` upward, and the fault at the first address outside memory. That `I` is unchanged is the spec's
decision D13 (log 14). -/
def Obligations.LdmLoadsTheRegisterBlock : Prop :=
  ∀ (x : Reg) (s : State), decodeWord (0xF#4 ++ nibble x ++ 0x65#8) = .ok (.ldm x) ∧
    (effectiveAddr s x.val < s.cfg.memSize → ∃ t, exec (.ldm x) s = .next t ∧
      (∀ k : Reg, k ≤ x → t.reg k = s.peek (effectiveAddr s k.val)) ∧
      OnlyWrites (fun f => ∃ k : Reg, k ≤ x ∧ f = .v k) s t) ∧
    (∀ k, FirstOutside s (x.val + 1) k → exec (.ldm x) s = .fault (.outOfBounds (effectiveAddr s k) .read))

/-! ### Display (`44_display.md`) -/

/-- R170; that the redraw flag is set is the spec's decision D17 (log 16). -/
def Obligations.ClsClearsEveryPixel : Prop :=
  ∀ s : State, decodeWord 0x00E0#16 = .ok .cls ∧
    ∃ t, exec .cls s = .next t ∧ (∀ x y, FrameBuffer.pixel t.fb x y = false) ∧ t.drawPending = true ∧
      OnlyWrites (fun f => f = .drawPending ∨ ∃ x y, f = .pixel x y) s t

/-- R171 to R174: the loop of the rule's pseudocode toggles exactly the pixels the sprite covers, modulo 64 and 32, and the
flag is 1 exactly if one of them was lit; the first row outside memory faults. The bit order is the spec's decision D10 (log
12), the latched coordinates D9. -/
def Obligations.DrwTogglesTheCoveredPixels : Prop :=
  ∀ (x y : Reg) (n : Nat) (s : State), n < 16 →
    decodeWord (0xD#4 ++ nibble x ++ nibble y ++ BitVec.ofNat 4 n) = .ok (.drw x y n) ∧
    ((∀ k, k < n → effectiveAddr s k < s.cfg.memSize) → ∃ t, exec (.drw x y n) s = .next t ∧ t.drawPending = true ∧
      (∀ a b, Covers (s.reg x).toNat (s.reg y).toNat (bytesFrom s s.index.toNat n) a b →
        FrameBuffer.pixel t.fb a b = !FrameBuffer.pixel s.fb a b) ∧
      (∀ a b, ¬ Covers (s.reg x).toNat (s.reg y).toNat (bytesFrom s s.index.toNat n) a b →
        FrameBuffer.pixel t.fb a b = FrameBuffer.pixel s.fb a b) ∧
      ((∃ a b, Covers (s.reg x).toNat (s.reg y).toNat (bytesFrom s s.index.toNat n) a b ∧
        FrameBuffer.pixel s.fb a b = true) → t.reg VF = 1) ∧
      (¬ (∃ a b, Covers (s.reg x).toNat (s.reg y).toNat (bytesFrom s s.index.toNat n) a b ∧
        FrameBuffer.pixel s.fb a b = true) → t.reg VF = 0) ∧
      OnlyWrites (fun f => f = .v VF ∨ f = .drawPending ∨ ∃ a b, f = .pixel a b) s t) ∧
    (∀ k, FirstOutside s n k → exec (.drw x y n) s = .fault (.outOfBounds (effectiveAddr s k) .read))

/-- R175 (b), with the coordinates in registers other than `VF`: drawing the same sprite twice restores every pixel, and the
second draw collides exactly if some covered pixel was unlit before the first. The spec marks the second half as its own
inference ("[derived: from rule R174]"); which pixels are covered rests on the bit order, its decision D10 (log 12), and that
the second draw reads the same bytes on `I` being unchanged, D13 (log 14). -/
def Obligations.DrawingTwiceRestoresThePixels : Prop :=
  ∀ (x y : Reg) (n : Nat) (s t u : State), n < 16 → x ≠ VF → y ≠ VF →
    exec (.drw x y n) s = .next t → exec (.drw x y n) t = .next u →
    (∀ a b, FrameBuffer.pixel u.fb a b = FrameBuffer.pixel s.fb a b) ∧
    (u.reg VF = 1 ↔ ∃ a b, Covers (s.reg x).toNat (s.reg y).toNat (bytesFrom s s.index.toNat n) a b ∧
      FrameBuffer.pixel s.fb a b = false)

/-! ### Keypad and timers (`45_keypad_timers.md`) -/

/-- R185 to R187: the key is the low nibble of the register (the spec's decision D11, log 4); under the other value of `KEYSEL`
a register above 15 faults. -/
def Obligations.KeySkipsTestTheKeyLevel : Prop :=
  ∀ (x : Reg) (s : State) (k : Reg), k.val = (s.reg x).toNat % 16 →
    decodeWord (0xE#4 ++ nibble x ++ 0x9E#8) = .ok (.skp x) ∧ decodeWord (0xE#4 ++ nibble x ++ 0xA1#8) = .ok (.sknp x) ∧
    (s.cfg.keySelect = .lowNibble ∨ (s.reg x).toNat ≤ 15 →
      (∃ t, exec (.skp x) s = .next t ∧ t.pc = (if s.keyPressed k then s.pc + 2 else s.pc) ∧
        OnlyWrites (among [.pc]) s t) ∧
      (∃ t, exec (.sknp x) s = .next t ∧ t.pc = (if s.keyPressed k then s.pc else s.pc + 2) ∧
        OnlyWrites (among [.pc]) s t)) ∧
    (s.cfg.keySelect = .faultAbove15 → 15 < (s.reg x).toNat →
      exec (.skp x) s = .fault (.keyCode (s.reg x) (s.pc - 2)) ∧
      exec (.sknp x) s = .fault (.keyCode (s.reg x) (s.pc - 2)))

/-- R188: the instruction itself only enters the wait state. -/
def Obligations.WkeyEntersTheWaitState : Prop :=
  ∀ (x : Reg) (s : State), decodeWord (0xF#4 ++ nibble x ++ 0x0A#8) = .ok (.wkey x) ∧
    ∃ t, exec (.wkey x) s = .next t ∧ t.wait = .awaiting x ∧ OnlyWrites (among [.wait]) s t

/-- R189: the value before this step's decrement. -/
def Obligations.LddtReadsTheDelayTimer : Prop :=
  ∀ (x : Reg) (s : State), decodeWord (0xF#4 ++ nibble x ++ 0x07#8) = .ok (.lddt x) ∧
    ∃ t, exec (.lddt x) s = .next t ∧ t.reg x = s.dt ∧ OnlyWrites (among [.v x]) s t

/-- R190, R191: the register goes into the timer, and the same step's timer phase then takes one off it and beeps if the sound
timer was set to 1. -/
def Obligations.TimerWritesAreDecrementedInTheSameStep : Prop :=
  ∀ (x : Reg) (s : State),
    decodeWord (0xF#4 ++ nibble x ++ 0x15#8) = .ok (.stdt x) ∧ decodeWord (0xF#4 ++ nibble x ++ 0x18#8) = .ok (.stst x) ∧
    (∃ t, exec (.stdt x) s = .next t ∧ t.dt = s.reg x ∧ OnlyWrites (among [.delay]) s t ∧
      (endStep t).dt.toNat = (s.reg x).toNat - 1) ∧
    (∃ t, exec (.stst x) s = .next t ∧ t.st = s.reg x ∧ OnlyWrites (among [.sound]) s t ∧
      (endStep t).st.toNat = (s.reg x).toNat - 1 ∧ ((endStep t).beep = true ↔ (s.reg x).toNat = 1))
end

