-- ==== Sys2Proof/Laws/Decode.lean ====
section
/-! SUPPORT. The opcode map is unambiguous, and the fields of a word put together are the fields put in. -/

namespace Sys2Proof

/-- No word matches two rows: some bit that both masks fix is fixed differently. -/
def OpRow.Disjoint (r q : OpRow) : Prop := r.pattern &&& q.mask ≠ q.pattern &&& r.mask

theorem opcodeRows_disjoint : opcodeRows.Pairwise fun r q => r.pattern &&& q.mask ≠ q.pattern &&& r.mask := by decide

/-- A row that a word matches is the only one. -/
theorem OpRow.not_both {r q : OpRow} {w : Word} (h : r.pattern &&& q.mask ≠ q.pattern &&& r.mask)
    (hr : w &&& r.mask = r.pattern) (hq : w &&& q.mask = q.pattern) : False := by
  apply h
  rw [← hr, ← hq, BitVec.and_assoc, BitVec.and_assoc, BitVec.and_comm r.mask]

theorem find_row {l : List OpRow} (hl : l.Pairwise fun r q => r.pattern &&& q.mask ≠ q.pattern &&& r.mask) {r : OpRow}
    {w : Word} (hr : r ∈ l) (hw : w &&& r.mask = r.pattern) :
    l.find? (fun q => w &&& q.mask == q.pattern) = some r := by
  induction l with
  | nil => cases hr
  | cons q l ih =>
    obtain ⟨hq, hl⟩ := List.pairwise_cons.1 hl
    by_cases hm : w &&& q.mask = q.pattern
    · rcases List.mem_cons.1 hr with rfl | hr
      · simp [hm]
      · exact (OpRow.not_both (hq r hr) hm hw).elim
    · rcases List.mem_cons.1 hr with rfl | hr
      · exact absurd hw hm
      · rw [List.find?_cons_of_neg (by simpa using hm)]
        exact ih hl hr

/-- A word that matches a row of the opcode map decodes by it. -/
theorem decodeWord_of_row {r : OpRow} {w : Word} (hr : r ∈ opcodeRows) (hw : w &&& r.mask = r.pattern) :
    decodeWord w = .ok (r.build w) := by
  rw [decodeWord, find_row opcodeRows_disjoint hr hw]

/-- Whatever a word decodes to, it decodes to by a row it matches. -/
theorem row_of_decodeWord {w : Word} {i : Instr} (h : decodeWord w = .ok i) :
    ∃ r ∈ opcodeRows, w &&& r.mask = r.pattern ∧ r.build w = i := by
  rw [decodeWord] at h
  split at h
  · next r hr =>
    exact ⟨r, List.mem_of_find?_eq_some hr, by simpa using List.find?_some hr, by simpa using h⟩
  · cases h

/-- A word decodes to nothing exactly when it matches no row. -/
theorem decodeWord_error_iff {w : Word} :
    decodeWord w = .error (.illegal w) ↔ ∀ r ∈ opcodeRows, w &&& r.mask ≠ r.pattern := by
  rw [decodeWord]
  split
  · next r hr =>
    simp only [reduceCtorEq, false_iff, not_forall, not_not]
    exact ⟨r, List.mem_of_find?_eq_some hr, by simpa using List.find?_some hr⟩
  · next hr => simpa using hr

/-- A word that is no instruction is reported by its own name. -/
theorem decodeWord_error {w : Word} {e : DecodeError} (h : decodeWord w = .error e) : e = .illegal w := by
  rw [decodeWord] at h
  split at h
  · cases h
  · simpa using h.symm

/-- The bytes of a word in memory order decode to what the word decodes to. -/
theorem decode_wordBytes (w : Word) (rest : List Byte) :
    decode (wordBytes w ++ rest) = (decodeWord w).map fun i => (i, rest) := by
  have hw : joinBytes (w.extractLsb' 8 8) (w.extractLsb' 0 8) = w := by
    rw [joinBytes, BitVec.extractLsb'_append_extractLsb'_eq_extractLsb' (by rfl)]
    exact BitVec.extractLsb'_eq_self
  simp only [wordBytes, List.cons_append, List.nil_append, decode, hw]
  cases decodeWord w <;> rfl

/-! ### Putting fields together -/

@[simp] theorem nibble_toFin (x : Reg) : (nibble x).toFin = x := by
  ext; simp [nibble]

@[simp] theorem toFin_nibble (v : BitVec 4) : nibble v.toFin = v := by
  apply BitVec.eq_of_toNat_eq
  simp [nibble]

@[simp] theorem and_fifteen (v : BitVec 4) : v &&& 15#4 = v := BitVec.and_allOnes

@[simp] theorem and_255 (v : BitVec 8) : v &&& 255#8 = v := BitVec.and_allOnes

theorem nibble_fieldX (w : Word) : nibble (fieldX w) = w.extractLsb' 8 4 := toFin_nibble _

theorem nibble_fieldY (w : Word) : nibble (fieldY w) = w.extractLsb' 4 4 := toFin_nibble _

section Fields

variable (op x y n : BitVec 4) (nn : BitVec 8) (nnn : BitVec 12)

/-- The fields of a word of format `A`. -/
@[simp] theorem fieldNNN_append : fieldNNN (op ++ nnn) = nnn := by
  rw [fieldNNN, BitVec.extractLsb'_append_eq_of_add_le (by decide)]
  simp

/-- The fields of a word of formats `RI` and `R`. -/
@[simp] theorem fieldX_append_byte : fieldX (op ++ x ++ nn) = x.toFin := by
  rw [fieldX, BitVec.extractLsb'_append_eq_of_le (by decide), BitVec.extractLsb'_append_eq_of_add_le (by decide)]
  simp

@[simp] theorem fieldNN_append_byte : fieldNN (op ++ x ++ nn) = nn := by
  rw [fieldNN, BitVec.extractLsb'_append_eq_of_add_le (by decide)]
  simp

/-- The fields of a word of format `RR`. -/
@[simp] theorem fieldX_append : fieldX (op ++ x ++ y ++ n) = x.toFin := by
  rw [fieldX, BitVec.extractLsb'_append_eq_of_le (by decide), BitVec.extractLsb'_append_eq_of_le (by decide),
    BitVec.extractLsb'_append_eq_of_add_le (by decide)]
  simp

@[simp] theorem fieldY_append : fieldY (op ++ x ++ y ++ n) = y.toFin := by
  rw [fieldY, BitVec.extractLsb'_append_eq_of_le (by decide), BitVec.extractLsb'_append_eq_of_add_le (by decide)]
  simp

@[simp] theorem fieldN_append : fieldN (op ++ x ++ y ++ n) = n.toNat := by
  rw [fieldN, BitVec.extractLsb'_append_eq_of_add_le (by decide)]
  simp

/-! The masks of the opcode map, on words put together. -/

theorem mask_address : (op ++ nnn) &&& 0xF000#16 = op ++ 0#12 := by
  rw [show (0xF000#16) = 0xF#4 ++ 0#12 by decide, BitVec.and_append]
  simp

theorem mask_immediate : (op ++ x ++ nn) &&& 0xF000#16 = op ++ 0#4 ++ 0#8 := by
  rw [show (0xF000#16) = 0xF#4 ++ 0#4 ++ 0#8 by decide, BitVec.and_append, BitVec.and_append]
  simp

theorem mask_low_byte : (op ++ x ++ nn) &&& 0xF0FF#16 = op ++ 0#4 ++ nn := by
  rw [show (0xF0FF#16) = 0xF#4 ++ 0#4 ++ 0xFF#8 by decide, BitVec.and_append, BitVec.and_append]
  simp

theorem mask_low_nibble : (op ++ x ++ y ++ n) &&& 0xF00F#16 = op ++ 0#4 ++ 0#4 ++ n := by
  rw [show (0xF00F#16) = 0xF#4 ++ 0#4 ++ 0#4 ++ 0xF#4 by decide, BitVec.and_append, BitVec.and_append, BitVec.and_append]
  simp

theorem mask_family : (op ++ x ++ y ++ n) &&& 0xF000#16 = op ++ 0#4 ++ 0#4 ++ 0#4 := by
  rw [show (0xF000#16) = 0xF#4 ++ 0#4 ++ 0#4 ++ 0#4 by decide, BitVec.and_append, BitVec.and_append, BitVec.and_append]
  simp

end Fields

/-! ### Taking a word apart -/

/-- A word is its family nibble and its 12-bit address. -/
theorem word_eq_address (w : Word) : w.extractLsb' 12 4 ++ fieldNNN w = w := by
  rw [fieldNNN, BitVec.extractLsb'_append_extractLsb'_eq_extractLsb' (by rfl)]
  exact BitVec.extractLsb'_eq_self

/-- A word is its family nibble, its `X` and its low byte. -/
theorem word_eq_immediate (w : Word) : w.extractLsb' 12 4 ++ nibble (fieldX w) ++ fieldNN w = w := by
  rw [fieldNN, nibble_fieldX, BitVec.extractLsb'_append_extractLsb'_eq_extractLsb' (by rfl),
    BitVec.extractLsb'_append_extractLsb'_eq_extractLsb' (by rfl)]
  exact BitVec.extractLsb'_eq_self

/-- A word is its four nibbles. -/
theorem word_eq_nibbles (w : Word) :
    w.extractLsb' 12 4 ++ nibble (fieldX w) ++ nibble (fieldY w) ++ w.extractLsb' 0 4 = w := by
  rw [nibble_fieldX, nibble_fieldY, BitVec.extractLsb'_append_extractLsb'_eq_extractLsb' (by rfl),
    BitVec.extractLsb'_append_extractLsb'_eq_extractLsb' (by rfl),
    BitVec.extractLsb'_append_extractLsb'_eq_extractLsb' (by rfl)]
  exact BitVec.extractLsb'_eq_self

/-! ### The masks of the opcode map, as arithmetic on the word -/

theorem toNat_append_add {v u : Nat} (a : BitVec v) (b : BitVec u) : (a ++ b).toNat = a.toNat * 2 ^ u + b.toNat := by
  rw [BitVec.toNat_append, ← Nat.shiftLeft_add_eq_or_of_lt b.isLt, Nat.shiftLeft_eq]

theorem family_toNat (w : Word) : (w.extractLsb' 12 4).toNat = w.toNat / 4096 := by
  have := w.isLt
  rw [BitVec.extractLsb'_toNat, Nat.shiftRight_eq_div_pow]
  omega

theorem fieldN_eq (w : Word) : fieldN w = w.toNat % 16 := by simp [fieldN]

theorem fieldN_lt (w : Word) : fieldN w < 16 := (w.extractLsb' 0 4).isLt

theorem fieldNN_toNat (w : Word) : (fieldNN w).toNat = w.toNat % 256 := by simp [fieldNN]

/-- A whole-family row: the family nibble is fixed. -/
theorem mask_F000_iff {w p : Word} {k : Nat} (hp : p.toNat = k * 4096) :
    w &&& 0xF000#16 = p ↔ w.toNat / 4096 = k := by
  have e : w &&& 0xF000#16 = w.extractLsb' 12 4 ++ 0#12 := by
    conv => lhs; rw [← word_eq_address w, mask_address]
  rw [e, ← BitVec.toNat_inj, toNat_append_add, family_toNat, hp]
  simp

/-- A row of a family with a sub-operation nibble. -/
theorem mask_F00F_iff {w p : Word} {k l : Nat} (hp : p.toNat = k * 4096 + l) (hl : l < 16) :
    w &&& 0xF00F#16 = p ↔ w.toNat / 4096 = k ∧ w.toNat % 16 = l := by
  have e : w &&& 0xF00F#16 = w.extractLsb' 12 4 ++ 0#4 ++ 0#4 ++ w.extractLsb' 0 4 := by
    conv => lhs; rw [← word_eq_nibbles w, mask_low_nibble]
  rw [e, ← BitVec.toNat_inj, toNat_append_add, toNat_append_add, toNat_append_add, family_toNat, hp]
  have : (w.extractLsb' 0 4).toNat = w.toNat % 16 := fieldN_eq w
  rw [this]
  simp only [BitVec.toNat_ofNat]
  omega

/-- A row of a family with a sub-operation byte. -/
theorem mask_F0FF_iff {w p : Word} {k l : Nat} (hp : p.toNat = k * 4096 + l) (hl : l < 256) :
    w &&& 0xF0FF#16 = p ↔ w.toNat / 4096 = k ∧ w.toNat % 256 = l := by
  have e : w &&& 0xF0FF#16 = w.extractLsb' 12 4 ++ 0#4 ++ fieldNN w := by
    conv => lhs; rw [← word_eq_immediate w, mask_low_byte]
  rw [e, ← BitVec.toNat_inj, toNat_append_add, toNat_append_add, family_toNat, hp, fieldNN_toNat]
  simp only [BitVec.toNat_ofNat]
  omega

/-- A word that a row's mask leaves equal to the row's pattern has the pattern's bits wherever the mask is all ones. -/
theorem extract_of_mask {w m p : Word} (h : w &&& m = p) (start len : Nat) (hm : m.extractLsb' start len = BitVec.allOnes len) :
    w.extractLsb' start len = p.extractLsb' start len := by
  rw [← h, BitVec.extractLsb'_and, hm, BitVec.and_allOnes]

/-- A row with no operand. -/
theorem mask_FFFF_iff {w p : Word} : w &&& 0xFFFF#16 = p ↔ w = p := by
  rw [show w &&& 0xFFFF#16 = w from BitVec.and_allOnes]

end Sys2Proof
end

