-- ==== Sys2Proof/Laws/State.lean ====
section
/-! SUPPORT. What each named update of the state leaves in each field, one lemma a field and update. -/

namespace Sys2Proof.Machine

/-! ### `setReg` -/

@[simp] theorem State.setReg_index (s : State) (r : Reg) (v : Byte) : (s.setReg r v).index = s.index := rfl
@[simp] theorem State.setReg_pc (s : State) (r : Reg) (v : Byte) : (s.setReg r v).pc = s.pc := rfl
@[simp] theorem State.setReg_stack (s : State) (r : Reg) (v : Byte) : (s.setReg r v).stack = s.stack := rfl
@[simp] theorem State.setReg_sp (s : State) (r : Reg) (v : Byte) : (s.setReg r v).sp = s.sp := rfl
@[simp] theorem State.setReg_dt (s : State) (r : Reg) (v : Byte) : (s.setReg r v).dt = s.dt := rfl
@[simp] theorem State.setReg_st (s : State) (r : Reg) (v : Byte) : (s.setReg r v).st = s.st := rfl
@[simp] theorem State.setReg_wait (s : State) (r : Reg) (v : Byte) : (s.setReg r v).wait = s.wait := rfl
@[simp] theorem State.setReg_drawPending (s : State) (r : Reg) (v : Byte) : (s.setReg r v).drawPending = s.drawPending := rfl
@[simp] theorem State.setReg_fb (s : State) (r : Reg) (v : Byte) : (s.setReg r v).fb = s.fb := rfl
@[simp] theorem State.setReg_mem (s : State) (r : Reg) (v : Byte) : (s.setReg r v).mem = s.mem := rfl
@[simp] theorem State.setReg_fault (s : State) (r : Reg) (v : Byte) : (s.setReg r v).fault = s.fault := rfl
@[simp] theorem State.setReg_beep (s : State) (r : Reg) (v : Byte) : (s.setReg r v).beep = s.beep := rfl
@[simp] theorem State.setReg_inputs (s : State) (r : Reg) (v : Byte) : (s.setReg r v).inputs = s.inputs := rfl
@[simp] theorem State.setReg_tick (s : State) (r : Reg) (v : Byte) : (s.setReg r v).tick = s.tick := rfl
@[simp] theorem State.setReg_cfg (s : State) (r : Reg) (v : Byte) : (s.setReg r v).cfg = s.cfg := rfl
@[simp] theorem State.setReg_peek (s : State) (r : Reg) (v : Byte) (b : Nat) : (s.setReg r v).peek b = s.peek b := rfl
@[simp] theorem State.setReg_input (s : State) (r : Reg) (v : Byte) : (s.setReg r v).input = s.input := rfl

/-! ### `loadRegs` -/

@[simp] theorem State.loadRegs_index (s : State) (l : List Byte) : (s.loadRegs l).index = s.index := rfl
@[simp] theorem State.loadRegs_pc (s : State) (l : List Byte) : (s.loadRegs l).pc = s.pc := rfl
@[simp] theorem State.loadRegs_stack (s : State) (l : List Byte) : (s.loadRegs l).stack = s.stack := rfl
@[simp] theorem State.loadRegs_sp (s : State) (l : List Byte) : (s.loadRegs l).sp = s.sp := rfl
@[simp] theorem State.loadRegs_dt (s : State) (l : List Byte) : (s.loadRegs l).dt = s.dt := rfl
@[simp] theorem State.loadRegs_st (s : State) (l : List Byte) : (s.loadRegs l).st = s.st := rfl
@[simp] theorem State.loadRegs_wait (s : State) (l : List Byte) : (s.loadRegs l).wait = s.wait := rfl
@[simp] theorem State.loadRegs_drawPending (s : State) (l : List Byte) : (s.loadRegs l).drawPending = s.drawPending := rfl
@[simp] theorem State.loadRegs_fb (s : State) (l : List Byte) : (s.loadRegs l).fb = s.fb := rfl
@[simp] theorem State.loadRegs_mem (s : State) (l : List Byte) : (s.loadRegs l).mem = s.mem := rfl
@[simp] theorem State.loadRegs_fault (s : State) (l : List Byte) : (s.loadRegs l).fault = s.fault := rfl
@[simp] theorem State.loadRegs_beep (s : State) (l : List Byte) : (s.loadRegs l).beep = s.beep := rfl
@[simp] theorem State.loadRegs_inputs (s : State) (l : List Byte) : (s.loadRegs l).inputs = s.inputs := rfl
@[simp] theorem State.loadRegs_tick (s : State) (l : List Byte) : (s.loadRegs l).tick = s.tick := rfl
@[simp] theorem State.loadRegs_cfg (s : State) (l : List Byte) : (s.loadRegs l).cfg = s.cfg := rfl
@[simp] theorem State.loadRegs_peek (s : State) (l : List Byte) (b : Nat) : (s.loadRegs l).peek b = s.peek b := rfl
@[simp] theorem State.loadRegs_input (s : State) (l : List Byte) : (s.loadRegs l).input = s.input := rfl

/-! ### `setIndex` -/

@[simp] theorem State.setIndex_regs (s : State) (v : Word) : (s.setIndex v).regs = s.regs := rfl
@[simp] theorem State.setIndex_index (s : State) (v : Word) : (s.setIndex v).index = v := rfl
@[simp] theorem State.setIndex_pc (s : State) (v : Word) : (s.setIndex v).pc = s.pc := rfl
@[simp] theorem State.setIndex_stack (s : State) (v : Word) : (s.setIndex v).stack = s.stack := rfl
@[simp] theorem State.setIndex_sp (s : State) (v : Word) : (s.setIndex v).sp = s.sp := rfl
@[simp] theorem State.setIndex_dt (s : State) (v : Word) : (s.setIndex v).dt = s.dt := rfl
@[simp] theorem State.setIndex_st (s : State) (v : Word) : (s.setIndex v).st = s.st := rfl
@[simp] theorem State.setIndex_wait (s : State) (v : Word) : (s.setIndex v).wait = s.wait := rfl
@[simp] theorem State.setIndex_drawPending (s : State) (v : Word) : (s.setIndex v).drawPending = s.drawPending := rfl
@[simp] theorem State.setIndex_fb (s : State) (v : Word) : (s.setIndex v).fb = s.fb := rfl
@[simp] theorem State.setIndex_mem (s : State) (v : Word) : (s.setIndex v).mem = s.mem := rfl
@[simp] theorem State.setIndex_fault (s : State) (v : Word) : (s.setIndex v).fault = s.fault := rfl
@[simp] theorem State.setIndex_beep (s : State) (v : Word) : (s.setIndex v).beep = s.beep := rfl
@[simp] theorem State.setIndex_inputs (s : State) (v : Word) : (s.setIndex v).inputs = s.inputs := rfl
@[simp] theorem State.setIndex_tick (s : State) (v : Word) : (s.setIndex v).tick = s.tick := rfl
@[simp] theorem State.setIndex_cfg (s : State) (v : Word) : (s.setIndex v).cfg = s.cfg := rfl
@[simp] theorem State.setIndex_reg (s : State) (v : Word) (q : Reg) : (s.setIndex v).reg q = s.reg q := rfl
@[simp] theorem State.setIndex_peek (s : State) (v : Word) (b : Nat) : (s.setIndex v).peek b = s.peek b := rfl
@[simp] theorem State.setIndex_input (s : State) (v : Word) : (s.setIndex v).input = s.input := rfl

/-! ### `setPc` -/

@[simp] theorem State.setPc_regs (s : State) (v : Word) : (s.setPc v).regs = s.regs := rfl
@[simp] theorem State.setPc_index (s : State) (v : Word) : (s.setPc v).index = s.index := rfl
@[simp] theorem State.setPc_pc (s : State) (v : Word) : (s.setPc v).pc = v := rfl
@[simp] theorem State.setPc_stack (s : State) (v : Word) : (s.setPc v).stack = s.stack := rfl
@[simp] theorem State.setPc_sp (s : State) (v : Word) : (s.setPc v).sp = s.sp := rfl
@[simp] theorem State.setPc_dt (s : State) (v : Word) : (s.setPc v).dt = s.dt := rfl
@[simp] theorem State.setPc_st (s : State) (v : Word) : (s.setPc v).st = s.st := rfl
@[simp] theorem State.setPc_wait (s : State) (v : Word) : (s.setPc v).wait = s.wait := rfl
@[simp] theorem State.setPc_drawPending (s : State) (v : Word) : (s.setPc v).drawPending = s.drawPending := rfl
@[simp] theorem State.setPc_fb (s : State) (v : Word) : (s.setPc v).fb = s.fb := rfl
@[simp] theorem State.setPc_mem (s : State) (v : Word) : (s.setPc v).mem = s.mem := rfl
@[simp] theorem State.setPc_fault (s : State) (v : Word) : (s.setPc v).fault = s.fault := rfl
@[simp] theorem State.setPc_beep (s : State) (v : Word) : (s.setPc v).beep = s.beep := rfl
@[simp] theorem State.setPc_inputs (s : State) (v : Word) : (s.setPc v).inputs = s.inputs := rfl
@[simp] theorem State.setPc_tick (s : State) (v : Word) : (s.setPc v).tick = s.tick := rfl
@[simp] theorem State.setPc_cfg (s : State) (v : Word) : (s.setPc v).cfg = s.cfg := rfl
@[simp] theorem State.setPc_reg (s : State) (v : Word) (q : Reg) : (s.setPc v).reg q = s.reg q := rfl
@[simp] theorem State.setPc_peek (s : State) (v : Word) (b : Nat) : (s.setPc v).peek b = s.peek b := rfl
@[simp] theorem State.setPc_input (s : State) (v : Word) : (s.setPc v).input = s.input := rfl

/-! ### `advance` -/

@[simp] theorem State.advance_regs (s : State) : s.advance.regs = s.regs := rfl
@[simp] theorem State.advance_index (s : State) : s.advance.index = s.index := rfl
@[simp] theorem State.advance_pc (s : State) : s.advance.pc = s.pc + 2 := rfl
@[simp] theorem State.advance_stack (s : State) : s.advance.stack = s.stack := rfl
@[simp] theorem State.advance_sp (s : State) : s.advance.sp = s.sp := rfl
@[simp] theorem State.advance_dt (s : State) : s.advance.dt = s.dt := rfl
@[simp] theorem State.advance_st (s : State) : s.advance.st = s.st := rfl
@[simp] theorem State.advance_wait (s : State) : s.advance.wait = s.wait := rfl
@[simp] theorem State.advance_drawPending (s : State) : s.advance.drawPending = s.drawPending := rfl
@[simp] theorem State.advance_fb (s : State) : s.advance.fb = s.fb := rfl
@[simp] theorem State.advance_mem (s : State) : s.advance.mem = s.mem := rfl
@[simp] theorem State.advance_fault (s : State) : s.advance.fault = s.fault := rfl
@[simp] theorem State.advance_beep (s : State) : s.advance.beep = s.beep := rfl
@[simp] theorem State.advance_inputs (s : State) : s.advance.inputs = s.inputs := rfl
@[simp] theorem State.advance_tick (s : State) : s.advance.tick = s.tick := rfl
@[simp] theorem State.advance_cfg (s : State) : s.advance.cfg = s.cfg := rfl
@[simp] theorem State.advance_reg (s : State) (q : Reg) : s.advance.reg q = s.reg q := rfl
@[simp] theorem State.advance_peek (s : State) (b : Nat) : s.advance.peek b = s.peek b := rfl
@[simp] theorem State.advance_input (s : State) : s.advance.input = s.input := rfl

/-! ### `skipIf` -/

@[simp] theorem State.skipIf_regs (s : State) (c : Bool) : (s.skipIf c).regs = s.regs := rfl
@[simp] theorem State.skipIf_index (s : State) (c : Bool) : (s.skipIf c).index = s.index := rfl
@[simp] theorem State.skipIf_pc (s : State) (c : Bool) : (s.skipIf c).pc = if c then s.pc + 2 else s.pc := rfl
@[simp] theorem State.skipIf_stack (s : State) (c : Bool) : (s.skipIf c).stack = s.stack := rfl
@[simp] theorem State.skipIf_sp (s : State) (c : Bool) : (s.skipIf c).sp = s.sp := rfl
@[simp] theorem State.skipIf_dt (s : State) (c : Bool) : (s.skipIf c).dt = s.dt := rfl
@[simp] theorem State.skipIf_st (s : State) (c : Bool) : (s.skipIf c).st = s.st := rfl
@[simp] theorem State.skipIf_wait (s : State) (c : Bool) : (s.skipIf c).wait = s.wait := rfl
@[simp] theorem State.skipIf_drawPending (s : State) (c : Bool) : (s.skipIf c).drawPending = s.drawPending := rfl
@[simp] theorem State.skipIf_fb (s : State) (c : Bool) : (s.skipIf c).fb = s.fb := rfl
@[simp] theorem State.skipIf_mem (s : State) (c : Bool) : (s.skipIf c).mem = s.mem := rfl
@[simp] theorem State.skipIf_fault (s : State) (c : Bool) : (s.skipIf c).fault = s.fault := rfl
@[simp] theorem State.skipIf_beep (s : State) (c : Bool) : (s.skipIf c).beep = s.beep := rfl
@[simp] theorem State.skipIf_inputs (s : State) (c : Bool) : (s.skipIf c).inputs = s.inputs := rfl
@[simp] theorem State.skipIf_tick (s : State) (c : Bool) : (s.skipIf c).tick = s.tick := rfl
@[simp] theorem State.skipIf_cfg (s : State) (c : Bool) : (s.skipIf c).cfg = s.cfg := rfl
@[simp] theorem State.skipIf_reg (s : State) (c : Bool) (q : Reg) : (s.skipIf c).reg q = s.reg q := rfl
@[simp] theorem State.skipIf_peek (s : State) (c : Bool) (b : Nat) : (s.skipIf c).peek b = s.peek b := rfl
@[simp] theorem State.skipIf_input (s : State) (c : Bool) : (s.skipIf c).input = s.input := rfl

/-! ### `setDelay` -/

@[simp] theorem State.setDelay_regs (s : State) (v : Byte) : (s.setDelay v).regs = s.regs := rfl
@[simp] theorem State.setDelay_index (s : State) (v : Byte) : (s.setDelay v).index = s.index := rfl
@[simp] theorem State.setDelay_pc (s : State) (v : Byte) : (s.setDelay v).pc = s.pc := rfl
@[simp] theorem State.setDelay_stack (s : State) (v : Byte) : (s.setDelay v).stack = s.stack := rfl
@[simp] theorem State.setDelay_sp (s : State) (v : Byte) : (s.setDelay v).sp = s.sp := rfl
@[simp] theorem State.setDelay_dt (s : State) (v : Byte) : (s.setDelay v).dt = v := rfl
@[simp] theorem State.setDelay_st (s : State) (v : Byte) : (s.setDelay v).st = s.st := rfl
@[simp] theorem State.setDelay_wait (s : State) (v : Byte) : (s.setDelay v).wait = s.wait := rfl
@[simp] theorem State.setDelay_drawPending (s : State) (v : Byte) : (s.setDelay v).drawPending = s.drawPending := rfl
@[simp] theorem State.setDelay_fb (s : State) (v : Byte) : (s.setDelay v).fb = s.fb := rfl
@[simp] theorem State.setDelay_mem (s : State) (v : Byte) : (s.setDelay v).mem = s.mem := rfl
@[simp] theorem State.setDelay_fault (s : State) (v : Byte) : (s.setDelay v).fault = s.fault := rfl
@[simp] theorem State.setDelay_beep (s : State) (v : Byte) : (s.setDelay v).beep = s.beep := rfl
@[simp] theorem State.setDelay_inputs (s : State) (v : Byte) : (s.setDelay v).inputs = s.inputs := rfl
@[simp] theorem State.setDelay_tick (s : State) (v : Byte) : (s.setDelay v).tick = s.tick := rfl
@[simp] theorem State.setDelay_cfg (s : State) (v : Byte) : (s.setDelay v).cfg = s.cfg := rfl
@[simp] theorem State.setDelay_reg (s : State) (v : Byte) (q : Reg) : (s.setDelay v).reg q = s.reg q := rfl
@[simp] theorem State.setDelay_peek (s : State) (v : Byte) (b : Nat) : (s.setDelay v).peek b = s.peek b := rfl
@[simp] theorem State.setDelay_input (s : State) (v : Byte) : (s.setDelay v).input = s.input := rfl

/-! ### `setSound` -/

@[simp] theorem State.setSound_regs (s : State) (v : Byte) : (s.setSound v).regs = s.regs := rfl
@[simp] theorem State.setSound_index (s : State) (v : Byte) : (s.setSound v).index = s.index := rfl
@[simp] theorem State.setSound_pc (s : State) (v : Byte) : (s.setSound v).pc = s.pc := rfl
@[simp] theorem State.setSound_stack (s : State) (v : Byte) : (s.setSound v).stack = s.stack := rfl
@[simp] theorem State.setSound_sp (s : State) (v : Byte) : (s.setSound v).sp = s.sp := rfl
@[simp] theorem State.setSound_dt (s : State) (v : Byte) : (s.setSound v).dt = s.dt := rfl
@[simp] theorem State.setSound_st (s : State) (v : Byte) : (s.setSound v).st = v := rfl
@[simp] theorem State.setSound_wait (s : State) (v : Byte) : (s.setSound v).wait = s.wait := rfl
@[simp] theorem State.setSound_drawPending (s : State) (v : Byte) : (s.setSound v).drawPending = s.drawPending := rfl
@[simp] theorem State.setSound_fb (s : State) (v : Byte) : (s.setSound v).fb = s.fb := rfl
@[simp] theorem State.setSound_mem (s : State) (v : Byte) : (s.setSound v).mem = s.mem := rfl
@[simp] theorem State.setSound_fault (s : State) (v : Byte) : (s.setSound v).fault = s.fault := rfl
@[simp] theorem State.setSound_beep (s : State) (v : Byte) : (s.setSound v).beep = s.beep := rfl
@[simp] theorem State.setSound_inputs (s : State) (v : Byte) : (s.setSound v).inputs = s.inputs := rfl
@[simp] theorem State.setSound_tick (s : State) (v : Byte) : (s.setSound v).tick = s.tick := rfl
@[simp] theorem State.setSound_cfg (s : State) (v : Byte) : (s.setSound v).cfg = s.cfg := rfl
@[simp] theorem State.setSound_reg (s : State) (v : Byte) (q : Reg) : (s.setSound v).reg q = s.reg q := rfl
@[simp] theorem State.setSound_peek (s : State) (v : Byte) (b : Nat) : (s.setSound v).peek b = s.peek b := rfl
@[simp] theorem State.setSound_input (s : State) (v : Byte) : (s.setSound v).input = s.input := rfl

/-! ### `setWait` -/

@[simp] theorem State.setWait_regs (s : State) (w : WaitState) : (s.setWait w).regs = s.regs := rfl
@[simp] theorem State.setWait_index (s : State) (w : WaitState) : (s.setWait w).index = s.index := rfl
@[simp] theorem State.setWait_pc (s : State) (w : WaitState) : (s.setWait w).pc = s.pc := rfl
@[simp] theorem State.setWait_stack (s : State) (w : WaitState) : (s.setWait w).stack = s.stack := rfl
@[simp] theorem State.setWait_sp (s : State) (w : WaitState) : (s.setWait w).sp = s.sp := rfl
@[simp] theorem State.setWait_dt (s : State) (w : WaitState) : (s.setWait w).dt = s.dt := rfl
@[simp] theorem State.setWait_st (s : State) (w : WaitState) : (s.setWait w).st = s.st := rfl
@[simp] theorem State.setWait_wait (s : State) (w : WaitState) : (s.setWait w).wait = w := rfl
@[simp] theorem State.setWait_drawPending (s : State) (w : WaitState) : (s.setWait w).drawPending = s.drawPending := rfl
@[simp] theorem State.setWait_fb (s : State) (w : WaitState) : (s.setWait w).fb = s.fb := rfl
@[simp] theorem State.setWait_mem (s : State) (w : WaitState) : (s.setWait w).mem = s.mem := rfl
@[simp] theorem State.setWait_fault (s : State) (w : WaitState) : (s.setWait w).fault = s.fault := rfl
@[simp] theorem State.setWait_beep (s : State) (w : WaitState) : (s.setWait w).beep = s.beep := rfl
@[simp] theorem State.setWait_inputs (s : State) (w : WaitState) : (s.setWait w).inputs = s.inputs := rfl
@[simp] theorem State.setWait_tick (s : State) (w : WaitState) : (s.setWait w).tick = s.tick := rfl
@[simp] theorem State.setWait_cfg (s : State) (w : WaitState) : (s.setWait w).cfg = s.cfg := rfl
@[simp] theorem State.setWait_reg (s : State) (w : WaitState) (q : Reg) : (s.setWait w).reg q = s.reg q := rfl
@[simp] theorem State.setWait_peek (s : State) (w : WaitState) (b : Nat) : (s.setWait w).peek b = s.peek b := rfl
@[simp] theorem State.setWait_input (s : State) (w : WaitState) : (s.setWait w).input = s.input := rfl

/-! ### `setFrame` -/

@[simp] theorem State.setFrame_regs (s : State) (d : FrameBuffer) : (s.setFrame d).regs = s.regs := rfl
@[simp] theorem State.setFrame_index (s : State) (d : FrameBuffer) : (s.setFrame d).index = s.index := rfl
@[simp] theorem State.setFrame_pc (s : State) (d : FrameBuffer) : (s.setFrame d).pc = s.pc := rfl
@[simp] theorem State.setFrame_stack (s : State) (d : FrameBuffer) : (s.setFrame d).stack = s.stack := rfl
@[simp] theorem State.setFrame_sp (s : State) (d : FrameBuffer) : (s.setFrame d).sp = s.sp := rfl
@[simp] theorem State.setFrame_dt (s : State) (d : FrameBuffer) : (s.setFrame d).dt = s.dt := rfl
@[simp] theorem State.setFrame_st (s : State) (d : FrameBuffer) : (s.setFrame d).st = s.st := rfl
@[simp] theorem State.setFrame_wait (s : State) (d : FrameBuffer) : (s.setFrame d).wait = s.wait := rfl
@[simp] theorem State.setFrame_drawPending (s : State) (d : FrameBuffer) : (s.setFrame d).drawPending = true := rfl
@[simp] theorem State.setFrame_fb (s : State) (d : FrameBuffer) : (s.setFrame d).fb = d := rfl
@[simp] theorem State.setFrame_mem (s : State) (d : FrameBuffer) : (s.setFrame d).mem = s.mem := rfl
@[simp] theorem State.setFrame_fault (s : State) (d : FrameBuffer) : (s.setFrame d).fault = s.fault := rfl
@[simp] theorem State.setFrame_beep (s : State) (d : FrameBuffer) : (s.setFrame d).beep = s.beep := rfl
@[simp] theorem State.setFrame_inputs (s : State) (d : FrameBuffer) : (s.setFrame d).inputs = s.inputs := rfl
@[simp] theorem State.setFrame_tick (s : State) (d : FrameBuffer) : (s.setFrame d).tick = s.tick := rfl
@[simp] theorem State.setFrame_cfg (s : State) (d : FrameBuffer) : (s.setFrame d).cfg = s.cfg := rfl
@[simp] theorem State.setFrame_reg (s : State) (d : FrameBuffer) (q : Reg) : (s.setFrame d).reg q = s.reg q := rfl
@[simp] theorem State.setFrame_peek (s : State) (d : FrameBuffer) (b : Nat) : (s.setFrame d).peek b = s.peek b := rfl
@[simp] theorem State.setFrame_input (s : State) (d : FrameBuffer) : (s.setFrame d).input = s.input := rfl

/-! ### `poke` -/

@[simp] theorem State.poke_regs (s : State) (a : Nat) (v : Byte) : (s.poke a v).regs = s.regs := rfl
@[simp] theorem State.poke_index (s : State) (a : Nat) (v : Byte) : (s.poke a v).index = s.index := rfl
@[simp] theorem State.poke_pc (s : State) (a : Nat) (v : Byte) : (s.poke a v).pc = s.pc := rfl
@[simp] theorem State.poke_stack (s : State) (a : Nat) (v : Byte) : (s.poke a v).stack = s.stack := rfl
@[simp] theorem State.poke_sp (s : State) (a : Nat) (v : Byte) : (s.poke a v).sp = s.sp := rfl
@[simp] theorem State.poke_dt (s : State) (a : Nat) (v : Byte) : (s.poke a v).dt = s.dt := rfl
@[simp] theorem State.poke_st (s : State) (a : Nat) (v : Byte) : (s.poke a v).st = s.st := rfl
@[simp] theorem State.poke_wait (s : State) (a : Nat) (v : Byte) : (s.poke a v).wait = s.wait := rfl
@[simp] theorem State.poke_drawPending (s : State) (a : Nat) (v : Byte) : (s.poke a v).drawPending = s.drawPending := rfl
@[simp] theorem State.poke_fb (s : State) (a : Nat) (v : Byte) : (s.poke a v).fb = s.fb := rfl
@[simp] theorem State.poke_mem (s : State) (a : Nat) (v : Byte) : (s.poke a v).mem = Memory.write s.cfg s.mem a v := rfl
@[simp] theorem State.poke_fault (s : State) (a : Nat) (v : Byte) : (s.poke a v).fault = s.fault := rfl
@[simp] theorem State.poke_beep (s : State) (a : Nat) (v : Byte) : (s.poke a v).beep = s.beep := rfl
@[simp] theorem State.poke_inputs (s : State) (a : Nat) (v : Byte) : (s.poke a v).inputs = s.inputs := rfl
@[simp] theorem State.poke_tick (s : State) (a : Nat) (v : Byte) : (s.poke a v).tick = s.tick := rfl
@[simp] theorem State.poke_cfg (s : State) (a : Nat) (v : Byte) : (s.poke a v).cfg = s.cfg := rfl
@[simp] theorem State.poke_reg (s : State) (a : Nat) (v : Byte) (q : Reg) : (s.poke a v).reg q = s.reg q := rfl
@[simp] theorem State.poke_input (s : State) (a : Nat) (v : Byte) : (s.poke a v).input = s.input := rfl

/-! ### `timerPhase` -/

@[simp] theorem State.timerPhase_regs (s : State) : s.timerPhase.regs = s.regs := rfl
@[simp] theorem State.timerPhase_index (s : State) : s.timerPhase.index = s.index := rfl
@[simp] theorem State.timerPhase_pc (s : State) : s.timerPhase.pc = s.pc := rfl
@[simp] theorem State.timerPhase_stack (s : State) : s.timerPhase.stack = s.stack := rfl
@[simp] theorem State.timerPhase_sp (s : State) : s.timerPhase.sp = s.sp := rfl
@[simp] theorem State.timerPhase_dt (s : State) : s.timerPhase.dt = countDown s.dt := rfl
@[simp] theorem State.timerPhase_st (s : State) : s.timerPhase.st = countDown s.st := rfl
@[simp] theorem State.timerPhase_wait (s : State) : s.timerPhase.wait = s.wait := rfl
@[simp] theorem State.timerPhase_drawPending (s : State) : s.timerPhase.drawPending = s.drawPending := rfl
@[simp] theorem State.timerPhase_fb (s : State) : s.timerPhase.fb = s.fb := rfl
@[simp] theorem State.timerPhase_mem (s : State) : s.timerPhase.mem = s.mem := rfl
@[simp] theorem State.timerPhase_fault (s : State) : s.timerPhase.fault = s.fault := rfl
@[simp] theorem State.timerPhase_beep (s : State) : s.timerPhase.beep = decide (s.st = 1) := rfl
@[simp] theorem State.timerPhase_inputs (s : State) : s.timerPhase.inputs = s.inputs := rfl
@[simp] theorem State.timerPhase_tick (s : State) : s.timerPhase.tick = s.tick := rfl
@[simp] theorem State.timerPhase_cfg (s : State) : s.timerPhase.cfg = s.cfg := rfl
@[simp] theorem State.timerPhase_reg (s : State) (q : Reg) : s.timerPhase.reg q = s.reg q := rfl
@[simp] theorem State.timerPhase_peek (s : State) (b : Nat) : s.timerPhase.peek b = s.peek b := rfl
@[simp] theorem State.timerPhase_input (s : State) : s.timerPhase.input = s.input := rfl

/-! ### `nextInput` -/

@[simp] theorem State.nextInput_regs (s : State) : s.nextInput.regs = s.regs := rfl
@[simp] theorem State.nextInput_index (s : State) : s.nextInput.index = s.index := rfl
@[simp] theorem State.nextInput_pc (s : State) : s.nextInput.pc = s.pc := rfl
@[simp] theorem State.nextInput_stack (s : State) : s.nextInput.stack = s.stack := rfl
@[simp] theorem State.nextInput_sp (s : State) : s.nextInput.sp = s.sp := rfl
@[simp] theorem State.nextInput_dt (s : State) : s.nextInput.dt = s.dt := rfl
@[simp] theorem State.nextInput_st (s : State) : s.nextInput.st = s.st := rfl
@[simp] theorem State.nextInput_wait (s : State) : s.nextInput.wait = s.wait := rfl
@[simp] theorem State.nextInput_drawPending (s : State) : s.nextInput.drawPending = s.drawPending := rfl
@[simp] theorem State.nextInput_fb (s : State) : s.nextInput.fb = s.fb := rfl
@[simp] theorem State.nextInput_mem (s : State) : s.nextInput.mem = s.mem := rfl
@[simp] theorem State.nextInput_fault (s : State) : s.nextInput.fault = s.fault := rfl
@[simp] theorem State.nextInput_beep (s : State) : s.nextInput.beep = s.beep := rfl
@[simp] theorem State.nextInput_inputs (s : State) : s.nextInput.inputs = s.inputs.tail := rfl
@[simp] theorem State.nextInput_tick (s : State) : s.nextInput.tick = s.tick + 1 := rfl
@[simp] theorem State.nextInput_cfg (s : State) : s.nextInput.cfg = s.cfg := rfl
@[simp] theorem State.nextInput_reg (s : State) (q : Reg) : s.nextInput.reg q = s.reg q := rfl
@[simp] theorem State.nextInput_peek (s : State) (b : Nat) : s.nextInput.peek b = s.peek b := rfl

/-! ### Registers -/

/-- Reading a register after writing one. -/
@[simp] theorem State.setReg_reg (s : State) (r q : Reg) (v : Byte) :
    (s.setReg r v).reg q = if q = r then v else s.reg q := by
  simp only [State.reg, State.setReg, Fin.getElem_fin, Vector.getElem_set, Fin.ext_iff, eq_comm]

/-- Reading a register after a block load. -/
@[simp] theorem State.loadRegs_reg (s : State) (l : List Byte) (q : Reg) :
    (s.loadRegs l).reg q = l.getD q.val (s.reg q) := by
  simp [State.reg, State.loadRegs]

/-- The registers are what reading them says. -/
theorem State.regs_ext {s t : State} (h : ∀ q, t.reg q = s.reg q) : t.regs = s.regs :=
  Vector.ext fun i hi => h ⟨i, hi⟩

end Sys2Proof.Machine
end

