-- ==== Sys2Proof/Laws/Display.lean ====
section
/-! SUPPORT. What drawing does: which pixels a row and a sprite toggle, and when they collide (`44_display.md` R173 to
R175). -/

namespace Sys2Proof.Machine

@[simp] theorem FrameBuffer.pixel_toggle (fb : FrameBuffer) (x a : Fin 64) (y b : Fin 32) :
    FrameBuffer.pixel (FrameBuffer.toggle fb x y) a b =
      if a = x ∧ b = y then !FrameBuffer.pixel fb a b else FrameBuffer.pixel fb a b := by
  by_cases hy : b = y
  · subst hy
    by_cases hx : a = x
    · subst hx; simp [FrameBuffer.pixel, FrameBuffer.toggle]
    · have hx' : ¬ x.val = a.val := fun h => hx (Fin.ext h.symm)
      simp [FrameBuffer.pixel, FrameBuffer.toggle, hx, hx']
  · have hy' : ¬ y.val = b.val := fun h => hy (Fin.ext h.symm)
    simp [FrameBuffer.pixel, FrameBuffer.toggle, hy, hy']

@[simp] theorem FrameBuffer.pixel_blank (x : Fin 64) (y : Fin 32) : FrameBuffer.pixel FrameBuffer.blank x y = false := by
  simp [FrameBuffer.pixel, FrameBuffer.blank]

/-- Frame buffers with the same pixels are equal. -/
theorem FrameBuffer.ext_pixel {f g : FrameBuffer} (h : ∀ x y, FrameBuffer.pixel f x y = FrameBuffer.pixel g x y) : f = g :=
  Vector.ext fun i hi => Vector.ext fun j hj => h ⟨j, hj⟩ ⟨i, hi⟩

/-- Does a row of pixels from column `vx` on have a set one that falls on column `x`? -/
def RowCovers (vx : Nat) (bits : List Bool) (x : Fin 64) : Prop := ∃ k, bits[k]? = some true ∧ (vx + k) % 64 = x.val

theorem RowCovers_nil (vx : Nat) (x : Fin 64) : ¬ RowCovers vx [] x := by simp [RowCovers]

theorem RowCovers_cons (vx : Nat) (on : Bool) (bits : List Bool) (x : Fin 64) :
    RowCovers vx (on :: bits) x ↔ on = true ∧ vx % 64 = x.val ∨ RowCovers (vx + 1) bits x := by
  constructor
  · rintro ⟨k, hk, hx⟩
    cases k with
    | zero => exact .inl ⟨by simpa using hk, by simpa using hx⟩
    | succ k => exact .inr ⟨k, by simpa using hk, by rw [← hx]; congr 1; omega⟩
  · rintro (⟨rfl, hx⟩ | ⟨k, hk, hx⟩)
    · exact ⟨0, rfl, by simpa using hx⟩
    · exact ⟨k + 1, by simpa using hk, by rw [← hx]; congr 1; omega⟩

/-- A row shorter than the screen does not come back to its first column. -/
theorem RowCovers_ne {vx : Nat} {bits : List Bool} (h : bits.length < 64) {x : Fin 64} (hx : RowCovers (vx + 1) bits x) :
    vx % 64 ≠ x.val := by
  obtain ⟨k, hk, hx⟩ := hx
  have : k < bits.length := (List.getElem?_eq_some_iff.1 hk).1
  omega

/-- What drawing a row does to a canvas: the covered pixels of row `y` are toggled, and it collides where one of them was
lit. -/
theorem drawRow_spec (y : Fin 32) : ∀ (bits : List Bool) (vx : Nat) (d : Canvas), bits.length ≤ 64 →
    (∀ a b, (b = y ∧ RowCovers vx bits a →
        FrameBuffer.pixel (drawRow vx y bits d).1 a b = !FrameBuffer.pixel d.1 a b) ∧
      (¬ (b = y ∧ RowCovers vx bits a) →
        FrameBuffer.pixel (drawRow vx y bits d).1 a b = FrameBuffer.pixel d.1 a b)) ∧
    ((drawRow vx y bits d).2 = true ↔
      d.2 = true ∨ ∃ a, RowCovers vx bits a ∧ FrameBuffer.pixel d.1 a y = true)
  | [], vx, d, _ => by simp [drawRow, RowCovers_nil]
  | on :: bits, vx, d, h => by
    have hlen : bits.length < 64 := by simpa using h
    obtain ⟨ihp, ihc⟩ := drawRow_spec y bits (vx + 1) (plot (wrapColumn vx) y on d) (Nat.le_of_lt hlen)
    have hcol : ∀ a : Fin 64, a = wrapColumn vx ↔ vx % 64 = a.val := fun a => by
      rw [Fin.ext_iff]; exact eq_comm
    have hplot : ∀ a b, FrameBuffer.pixel (plot (wrapColumn vx) y on d).1 a b =
        if on = true ∧ vx % 64 = a.val ∧ b = y then !FrameBuffer.pixel d.1 a b else FrameBuffer.pixel d.1 a b := by
      intro a b
      cases on <;> simp [plot, hcol]
    rw [drawRow]
    constructor
    · intro a b
      obtain ⟨ih1, ih2⟩ := ihp a b
      by_cases hb : b = y
      · subst hb
        by_cases hr : RowCovers (vx + 1) bits a
        · have hne := RowCovers_ne hlen hr
          simp [RowCovers_cons, hr, ih1, hplot, hne]
        · have := ih2 (by simp [hr])
          simp only [RowCovers_cons, hr, or_false, true_and, this, hplot, and_true]
          constructor
          · intro hc; rw [if_pos hc]
          · intro hc; rw [if_neg hc]
      · have := ih2 (by simp [hb])
        simp [hb, this, hplot]
    · rw [ihc]
      have hcollide : (plot (wrapColumn vx) y on d).2 = true ↔
          d.2 = true ∨ on = true ∧ FrameBuffer.pixel d.1 (wrapColumn vx) y = true := by
        cases on <;> simp [plot]
      rw [hcollide]
      constructor
      · rintro ((hd | ⟨hon, hp⟩) | ⟨a, ha, hp⟩)
        · exact .inl hd
        · exact .inr ⟨wrapColumn vx, (RowCovers_cons ..).2 (.inl ⟨hon, ((hcol _).1 rfl)⟩), hp⟩
        · refine .inr ⟨a, (RowCovers_cons ..).2 (.inr ha), ?_⟩
          rw [hplot, if_neg (by simp [RowCovers_ne hlen ha])] at hp
          exact hp
      · rintro (hd | ⟨a, ha, hp⟩)
        · exact .inl (.inl hd)
        · rcases (RowCovers_cons ..).1 ha with ⟨hon, hx⟩ | ha
          · exact .inl (.inr ⟨hon, by rw [← (hcol a).2 hx]; exact hp⟩)
          · refine .inr ⟨a, ha, ?_⟩
            rw [hplot, if_neg (by simp [RowCovers_ne hlen ha])]
            exact hp

/-- A sprite byte covers a column where its bit for that column is set (`44_display.md` R172). -/
theorem RowCovers_spriteBits (vx : Nat) (b : Byte) (x : Fin 64) :
    RowCovers vx (spriteBits b) x ↔ ∃ col, col < 8 ∧ b.getLsbD (7 - col) = true ∧ (vx + col) % 64 = x.val := by
  simp only [RowCovers, spriteBits]
  constructor
  · rintro ⟨k, hk, hx⟩
    have hk8 : k < 8 := by simpa using (List.getElem?_eq_some_iff.1 hk).1
    exact ⟨k, hk8, by simpa [hk8] using hk, hx⟩
  · rintro ⟨k, hk8, hb, hx⟩
    exact ⟨k, by simp [hk8, hb], hx⟩

theorem spriteBits_length (b : Byte) : (spriteBits b).length ≤ 64 := by simp [spriteBits]

theorem Covers_nil (vx vy : Nat) (x : Fin 64) (y : Fin 32) : ¬ Covers vx vy [] x y := by simp [Covers]

/-- A sprite covers a pixel in its first row or in the rest. -/
theorem Covers_cons (vx vy : Nat) (b : Byte) (bytes : List Byte) (x : Fin 64) (y : Fin 32) :
    Covers vx vy (b :: bytes) x y ↔
      vy % 32 = y.val ∧ RowCovers vx (spriteBits b) x ∨ Covers vx (vy + 1) bytes x y := by
  rw [RowCovers_spriteBits]
  constructor
  · rintro ⟨col, row, v, hc, hv, hb, hx, hy⟩
    cases row with
    | zero =>
      obtain rfl : b = v := by simpa using hv
      exact .inl ⟨by simpa using hy, col, hc, hb, hx⟩
    | succ row => exact .inr ⟨col, row, v, hc, by simpa using hv, hb, hx, by rw [← hy]; congr 1; omega⟩
  · rintro (⟨hy, col, hc, hb, hx⟩ | ⟨col, row, v, hc, hv, hb, hx, hy⟩)
    · exact ⟨col, 0, b, hc, rfl, hb, hx, by simpa using hy⟩
    · exact ⟨col, row + 1, v, hc, by simpa using hv, hb, hx, by rw [← hy]; congr 1; omega⟩

/-- A sprite shorter than the screen does not come back to its first row. -/
theorem Covers_ne {vx vy : Nat} {bytes : List Byte} (h : bytes.length < 32) {x : Fin 64} {y : Fin 32}
    (hc : Covers vx (vy + 1) bytes x y) : vy % 32 ≠ y.val := by
  obtain ⟨col, row, b, -, hb, -, -, hy⟩ := hc
  have : row < bytes.length := (List.getElem?_eq_some_iff.1 hb).1
  omega

/-- What drawing a sprite does to a canvas: the covered pixels are toggled, and it collides where one of them was lit. -/
theorem drawRows_spec (vx : Nat) : ∀ (bytes : List Byte) (vy : Nat) (d : Canvas), bytes.length ≤ 32 →
    (∀ a b, (Covers vx vy bytes a b →
        FrameBuffer.pixel (drawRows vx vy bytes d).1 a b = !FrameBuffer.pixel d.1 a b) ∧
      (¬ Covers vx vy bytes a b →
        FrameBuffer.pixel (drawRows vx vy bytes d).1 a b = FrameBuffer.pixel d.1 a b)) ∧
    ((drawRows vx vy bytes d).2 = true ↔
      d.2 = true ∨ ∃ a b, Covers vx vy bytes a b ∧ FrameBuffer.pixel d.1 a b = true)
  | [], vy, d, _ => by simp [drawRows, Covers_nil]
  | v :: bytes, vy, d, h => by
    have hlen : bytes.length < 32 := by simpa using h
    obtain ⟨rp, rc⟩ := drawRow_spec (wrapRow vy) (spriteBits v) vx d (spriteBits_length v)
    obtain ⟨ihp, ihc⟩ := drawRows_spec vx bytes (vy + 1) (drawRow vx (wrapRow vy) (spriteBits v) d)
      (Nat.le_of_lt hlen)
    have hrow : ∀ b : Fin 32, b = wrapRow vy ↔ vy % 32 = b.val := fun b => by
      rw [Fin.ext_iff]; exact eq_comm
    rw [drawRows]
    constructor
    · intro a b
      obtain ⟨ih1, ih2⟩ := ihp a b
      obtain ⟨r1, r2⟩ := rp a b
      rw [hrow] at r1 r2
      by_cases hc : Covers vx (vy + 1) bytes a b
      · have hne := Covers_ne hlen hc
        simp [Covers_cons, hc, ih1 hc, r2 (by simp [hne])]
      · rw [ih2 hc, Covers_cons]
        simp only [hc, or_false]
        exact ⟨r1, r2⟩
    · rw [ihc, rc]
      constructor
      · rintro ((hd | ⟨a, ha, hp⟩) | ⟨a, b, hab, hp⟩)
        · exact .inl hd
        · exact .inr ⟨a, wrapRow vy, (Covers_cons ..).2 (.inl ⟨(hrow _).1 rfl, ha⟩), hp⟩
        · refine .inr ⟨a, b, (Covers_cons ..).2 (.inr hab), ?_⟩
          rwa [(rp a b).2 (by rw [hrow]; simp [Covers_ne hlen hab])] at hp
      · rintro (hd | ⟨a, b, hab, hp⟩)
        · exact .inl (.inl hd)
        · rcases (Covers_cons ..).1 hab with ⟨hy, ha⟩ | hab
          · exact .inl (.inr ⟨a, ha, by rw [← (hrow b).2 hy]; exact hp⟩)
          · refine .inr ⟨a, b, hab, ?_⟩
            rwa [(rp a b).2 (by rw [hrow]; simp [Covers_ne hlen hab])]

end Sys2Proof.Machine
end

