-- ==== Sys2Proof/Laws/Memory.lean ====
section
/-! SUPPORT. The laws of memory: a read after a write, the canonical form kept by every operation, equal reads of canonical
memories, and what the multi-byte reads and writes do. -/

namespace Sys2Proof.Machine

/-! ### Reading after writing -/

theorem Memory.read_erase (c : Config) (m : Memory) (a b : Nat) :
    Memory.read c (Memory.erase m a) b = if b = a then Memory.unlisted c a else Memory.read c m b := by
  induction m with
  | nil => by_cases h : b = a <;> simp [Memory.erase, Memory.read, h]
  | cons p m ih =>
    obtain ⟨q, u⟩ := p
    by_cases hq : q = a <;> by_cases hb : b = a <;> by_cases hbq : b = q <;>
      simp_all [Memory.erase, Memory.read]

theorem Memory.read_place (c : Config) (m : Memory) (a b : Nat) (v : Byte) (h : ∀ p ∈ m, p.1 ≠ a) :
    Memory.read c (Memory.place a v m) b = if b = a then v else Memory.read c m b := by
  induction m with
  | nil => simp [Memory.place, Memory.read]
  | cons p m ih =>
    obtain ⟨q, u⟩ := p
    have hq : q ≠ a := h (q, u) (by simp)
    have ih := ih fun p hp => h p (List.mem_cons_of_mem _ hp)
    by_cases hlt : a < q
    · simp [Memory.place, hlt, Memory.read]
    · by_cases hbq : b = q
      · subst hbq; simp [Memory.place, hlt, Memory.read, hq]
      · simp [Memory.place, hlt, Memory.read, hbq, ih]

theorem Memory.erase_ne (m : Memory) (a : Nat) : ∀ p ∈ Memory.erase m a, p.1 ≠ a := by
  simp [Memory.erase]

/-- A read after a write gives the value written at the address written and the old value elsewhere. -/
theorem Memory.read_write (c : Config) (m : Memory) (a b : Nat) (v : Byte) :
    Memory.read c (Memory.write c m a v) b = if b = a then v else Memory.read c m b := by
  unfold Memory.write
  split
  · next h => rw [Memory.read_erase]; simp [h]
  · rw [Memory.read_place c _ a b v (Memory.erase_ne m a), Memory.read_erase]
    split <;> rfl

@[simp] theorem State.poke_peek (s : State) (a b : Nat) (v : Byte) :
    (s.poke a v).peek b = if b = a then v else s.peek b :=
  Memory.read_write s.cfg s.mem a b v

/-! ### The canonical form -/

theorem Memory.wf_erase {c : Config} {m : Memory} (a : Nat) (h : Memory.wf c m) : Memory.wf c (Memory.erase m a) :=
  ⟨h.1.filter _, fun p hp => h.2 p (List.mem_of_mem_filter hp)⟩

theorem Memory.mem_place (a : Nat) (v : Byte) (m : Memory) (p : Host.Cell) :
    p ∈ Memory.place a v m ↔ p = (a, v) ∨ p ∈ m := by
  induction m with
  | nil => simp [Memory.place]
  | cons q m ih =>
    obtain ⟨b, u⟩ := q
    by_cases h : a < b
    · simp [Memory.place, h]
    · simp only [Memory.place, h, if_false, List.mem_cons, ih]
      tauto

theorem Memory.sorted_place (a : Nat) (v : Byte) {m : Memory} (h : m.Pairwise fun p q => p.1 < q.1)
    (hne : ∀ p ∈ m, p.1 ≠ a) : (Memory.place a v m).Pairwise fun p q => p.1 < q.1 := by
  induction m with
  | nil => simp [Memory.place]
  | cons q m ih =>
    obtain ⟨b, u⟩ := q
    obtain ⟨hb, hm⟩ := List.pairwise_cons.1 h
    have hba : b ≠ a := hne (b, u) (by simp)
    by_cases hab : a < b
    · simp only [Memory.place, hab, if_true, List.pairwise_cons]
      refine ⟨fun p hp => ?_, hb, hm⟩
      rcases List.mem_cons.1 hp with rfl | hp
      · exact hab
      · exact Nat.lt_trans hab (hb p hp)
    · simp only [Memory.place, hab, if_false, List.pairwise_cons]
      refine ⟨fun p hp => ?_, ih hm fun p hp => hne p (List.mem_cons_of_mem _ hp)⟩
      rcases (Memory.mem_place a v m p).1 hp with rfl | hp
      · show b < a; omega
      · exact hb p hp

/-- Writing inside memory keeps the canonical form. -/
theorem Memory.wf_write {c : Config} {m : Memory} {a : Nat} (v : Byte) (h : Memory.wf c m) (ha : a < c.memSize) :
    Memory.wf c (Memory.write c m a v) := by
  have he := Memory.wf_erase a h
  unfold Memory.write
  split
  · exact he
  · next hv =>
    refine ⟨Memory.sorted_place a v he.1 (Memory.erase_ne m a), fun p hp => ?_⟩
    rcases (Memory.mem_place a v _ p).1 hp with rfl | hp
    · exact ⟨ha, hv⟩
    · exact he.2 p hp

/-- The memory of reset is in canonical form. -/
theorem reset_memory_wf (c : Config) : Memory.wf (State.resetWith c).cfg (State.resetWith c).mem :=
  ⟨List.Pairwise.nil, fun _ h => by cases h⟩

theorem Memory.read_of_lt (c : Config) (m : Memory) (a : Nat) (h : ∀ p ∈ m, a < p.1) :
    Memory.read c m a = Memory.unlisted c a := by
  induction m with
  | nil => rfl
  | cons q m ih =>
    obtain ⟨b, u⟩ := q
    have hb : a < b := h (b, u) (by simp)
    rw [Memory.read, if_neg (Nat.ne_of_lt hb), ih fun p hp => h p (List.mem_cons_of_mem _ hp)]

/-- The head of a canonical memory is read back, and differs from what it would read as unlisted. -/
theorem Memory.read_head (c : Config) (b : Nat) (u : Byte) (m : Memory) : Memory.read c ((b, u) :: m) b = u := by
  simp [Memory.read]

/-- Canonical memories that read alike everywhere are equal. -/
theorem Memory.eq_of_read_eq {c : Config} : ∀ {m n : Memory}, Memory.wf c m → Memory.wf c n →
    (∀ a, Memory.read c m a = Memory.read c n a) → m = n
  | [], [], _, _, _ => rfl
  | [], (b, u) :: n, _, hn, h => absurd (h b) (by
      rw [Memory.read_head]; exact fun e => (hn.2 (b, u) (by simp)).2 e.symm)
  | (b, u) :: m, [], hm, _, h => absurd (h b) (by
      rw [Memory.read_head]; exact (hm.2 (b, u) (by simp)).2)
  | (b, u) :: m, (d, w) :: n, hm, hn, h => by
    obtain ⟨hbm, hm'⟩ := List.pairwise_cons.1 hm.1
    obtain ⟨hdn, hn'⟩ := List.pairwise_cons.1 hn.1
    have hbd : b = d := by
      rcases Nat.lt_trichotomy b d with hlt | he | hlt
      · refine absurd (h b) ?_
        rw [Memory.read_head, Memory.read_of_lt c ((d, w) :: n) b]
        · exact (hm.2 (b, u) (by simp)).2
        · intro p hp
          rcases List.mem_cons.1 hp with rfl | hp
          · exact hlt
          · exact Nat.lt_trans hlt (hdn p hp)
      · exact he
      · refine absurd (h d) ?_
        rw [Memory.read_head, Memory.read_of_lt c ((b, u) :: m) d]
        · exact fun e => (hn.2 (d, w) (by simp)).2 e.symm
        · intro p hp
          rcases List.mem_cons.1 hp with rfl | hp
          · exact hlt
          · exact Nat.lt_trans hlt (hbm p hp)
    subst hbd
    have huw : u = w := by simpa [Memory.read] using h b
    subst huw
    have : m = n := by
      refine Memory.eq_of_read_eq ⟨hm', fun p hp => hm.2 p (List.mem_cons_of_mem _ hp)⟩
        ⟨hn', fun p hp => hn.2 p (List.mem_cons_of_mem _ hp)⟩ fun a => ?_
      by_cases hab : a = b
      · subst hab
        rw [Memory.read_of_lt c m a hbm, Memory.read_of_lt c n a hdn]
      · simpa [Memory.read, hab] using h a
    rw [this]

/-! ### Single accesses -/

theorem readByte_ok {a : Nat} {s : State} (h : a < s.cfg.memSize) : readByte a s = .ok (s.peek a) := if_pos h

theorem readByte_error {a : Nat} {s : State} (h : s.cfg.memSize ≤ a) : readByte a s = .error (.outOfBounds a .read) :=
  if_neg (Nat.not_lt.2 h)

theorem writeByte_ok {a : Nat} {v : Byte} {s : State} (h : a < s.cfg.memSize) : writeByte a v s = .ok (s.poke a v) :=
  if_pos h

theorem writeByte_error {a : Nat} {v : Byte} {s : State} (h : s.cfg.memSize ≤ a) :
    writeByte a v s = .error (.outOfBounds a .write) := if_neg (Nat.not_lt.2 h)

theorem readWord_ok {a : Nat} {s : State} (h : a + 1 < s.cfg.memSize) :
    readWord a s = .ok (s.peek a ++ s.peek (a + 1)) := if_pos h

theorem readWord_error {a : Nat} {s : State} (h : s.cfg.memSize ≤ a + 1) :
    readWord a s = .error (.outOfBounds a .fetch) := if_neg (Nat.not_lt.2 h)

/-! ### Runs of bytes -/

/-- Reading `n` bytes inside memory gives them in ascending order. -/
theorem readBytes_ok {s : State} : ∀ {n a : Nat}, a + n ≤ s.cfg.memSize →
    readBytes a s n = .ok ((List.range n).map fun k => s.peek (a + k))
  | 0, _, _ => rfl
  | n + 1, a, h => by
    rw [readBytes, readByte_ok (by omega), readBytes_ok (by omega : a + 1 + n ≤ s.cfg.memSize),
      List.range_succ_eq_map, List.map_cons, List.map_map]
    simp [Function.comp_def, Nat.add_assoc, Nat.add_comm 1]

/-- Reading past memory faults at the first address outside. -/
theorem readBytes_error {s : State} : ∀ {n a : Nat}, 0 < n → s.cfg.memSize < a + n →
    readBytes a s n = .error (.outOfBounds (max a s.cfg.memSize) .read)
  | 0, _, h, _ => absurd h (Nat.lt_irrefl 0)
  | n + 1, a, _, h => by
    by_cases ha : a < s.cfg.memSize
    · rw [readBytes, readByte_ok ha, readBytes_error (by omega : 0 < n) (by omega : s.cfg.memSize < a + 1 + n)]
      simp only [Except.error.injEq, Fault.outOfBounds.injEq, and_true]
      omega
    · rw [readBytes, readByte_error (by omega), Nat.max_eq_left (by omega)]

/-- What the reads give, whatever happens: the bytes, or the first offending address. -/
theorem readBytes_cases (s : State) (a n : Nat) :
    (n = 0 ∨ a + n ≤ s.cfg.memSize) ∧ readBytes a s n = .ok ((List.range n).map fun k => s.peek (a + k)) ∨
    (0 < n ∧ s.cfg.memSize < a + n) ∧ readBytes a s n = .error (.outOfBounds (max a s.cfg.memSize) .read) := by
  rcases Nat.eq_zero_or_pos n with rfl | hn
  · exact .inl ⟨.inl rfl, rfl⟩
  · rcases Nat.lt_or_ge s.cfg.memSize (a + n) with h | h
    · exact .inr ⟨⟨hn, h⟩, readBytes_error hn h⟩
    · exact .inl ⟨.inr h, readBytes_ok h⟩

/-- Writing bytes inside memory writes them all. -/
theorem writeBytes_ok : ∀ {l : List Byte} {a : Nat} {s : State}, a + l.length ≤ s.cfg.memSize →
    writeBytes a l s = .ok (s.pokeAll a l)
  | [], _, _, _ => rfl
  | b :: bs, a, s, h => by
    rw [List.length_cons] at h
    rw [writeBytes, writeByte_ok (by omega), State.pokeAll]
    exact writeBytes_ok (by rw [State.poke_cfg]; omega)

/-- Writing past memory faults at the first address outside. -/
theorem writeBytes_error : ∀ {l : List Byte} {a : Nat} {s : State}, l ≠ [] → s.cfg.memSize < a + l.length →
    writeBytes a l s = .error (.outOfBounds (max a s.cfg.memSize) .write)
  | [], _, _, h, _ => absurd rfl h
  | b :: bs, a, s, _, h => by
    rw [List.length_cons] at h
    by_cases ha : a < s.cfg.memSize
    · rw [writeBytes, writeByte_ok ha]
      have hbs : bs ≠ [] := by rintro rfl; simp at h; omega
      have := writeBytes_error (s := s.poke a b) (a := a + 1) hbs (by rw [State.poke_cfg]; omega)
      simp only [this, State.poke_cfg, Except.error.injEq, Fault.outOfBounds.injEq, and_true]
      omega
    · rw [writeBytes, writeByte_error (by omega), Nat.max_eq_left (by omega)]

/-- What the writes give, whatever happens: all of them, or the first offending address. -/
theorem writeBytes_cases (s : State) (a : Nat) (l : List Byte) (hl : l ≠ []) :
    a + l.length ≤ s.cfg.memSize ∧ writeBytes a l s = .ok (s.pokeAll a l) ∨
    s.cfg.memSize < a + l.length ∧ writeBytes a l s = .error (.outOfBounds (max a s.cfg.memSize) .write) := by
  rcases Nat.lt_or_ge s.cfg.memSize (a + l.length) with h | h
  · exact .inr ⟨h, writeBytes_error hl h⟩
  · exact .inl ⟨h, writeBytes_ok h⟩

/-- Copying bytes changes memory only. -/
theorem State.pokeAll_eq (l : List Byte) (a : Nat) (s : State) : s.pokeAll a l = { s with mem := (s.pokeAll a l).mem } := by
  induction l generalizing a s with
  | nil => rfl
  | cons b bs ih => exact ih (a + 1) (s.poke a b)

@[simp] theorem State.pokeAll_cfg (l : List Byte) (a : Nat) (s : State) : (s.pokeAll a l).cfg = s.cfg := by
  rw [State.pokeAll_eq]

@[simp] theorem State.pokeAll_index (l : List Byte) (a : Nat) (s : State) : (s.pokeAll a l).index = s.index := by
  rw [State.pokeAll_eq]

@[simp] theorem State.pokeAll_reg (l : List Byte) (a : Nat) (s : State) (r : Reg) : (s.pokeAll a l).reg r = s.reg r := by
  rw [State.pokeAll_eq]; rfl

/-- Reading after copying bytes: the byte copied there, or the old one outside. -/
theorem State.pokeAll_peek (l : List Byte) (a : Nat) (s : State) (b : Nat) :
    (s.pokeAll a l).peek b = if a ≤ b then l.getD (b - a) (s.peek b) else s.peek b := by
  induction l generalizing a s with
  | nil => simp [State.pokeAll]
  | cons v vs ih =>
    rw [State.pokeAll, ih, State.poke_peek]
    rcases Nat.lt_trichotomy b a with h | h | h
    · rw [if_neg (by omega), if_neg (by omega), if_neg (by omega)]
    · subst h; simp
    · obtain ⟨k, rfl⟩ := Nat.exists_eq_add_of_lt h
      rw [if_pos (by omega), if_neg (by omega), if_pos (by omega)]
      rw [show a + k + 1 - (a + 1) = k by omega, show a + k + 1 - a = k + 1 by omega]
      simp

/-- Copying bytes inside memory keeps the canonical form. -/
theorem State.pokeAll_wf {l : List Byte} {a : Nat} {s : State} (h : Memory.wf s.cfg s.mem)
    (ha : a + l.length ≤ s.cfg.memSize) : Memory.wf (s.pokeAll a l).cfg (s.pokeAll a l).mem := by
  induction l generalizing a s with
  | nil => exact h
  | cons v vs ih =>
    rw [List.length_cons] at ha
    have h1 : a < s.cfg.memSize := by omega
    exact ih (s := s.poke a v) (Memory.wf_write v h h1) (show a + 1 + vs.length ≤ s.cfg.memSize by omega)

end Sys2Proof.Machine
end

