-- ==== Sys2Proof/Laws/Exec.lean ====
section
/-! SUPPORT. One lemma for each shared operation of the meanings, and for each instruction whose meaning branches: when it
answers a next state, and which. -/

namespace Sys2Proof.Machine

/-! ### The flag and result writes (`42_alu.md` R132) -/

/-- The register file after the two writes: the order shows only in `VF`. -/
theorem writeFlagged_reg (r q : Reg) (v : Byte) (b : Bool) (s : State) :
    (writeFlagged r v b s).reg q =
      if q = r then (if r = VF ∧ s.cfg.flagOrder = .resultThenFlag then flagByte b else v)
      else if q = VF then flagByte b else s.reg q := by
  unfold writeFlagged
  cases s.cfg.flagOrder <;> by_cases hr : r = VF <;> by_cases hq : q = r <;> by_cases hv : q = VF <;> simp_all

@[simp] theorem writeFlagged_index (r : Reg) (v : Byte) (b : Bool) (s : State) : (writeFlagged r v b s).index = s.index := by
  unfold writeFlagged; cases s.cfg.flagOrder <;> rfl

@[simp] theorem writeFlagged_pc (r : Reg) (v : Byte) (b : Bool) (s : State) : (writeFlagged r v b s).pc = s.pc := by
  unfold writeFlagged; cases s.cfg.flagOrder <;> rfl

@[simp] theorem writeFlagged_stack (r : Reg) (v : Byte) (b : Bool) (s : State) : (writeFlagged r v b s).stack = s.stack := by
  unfold writeFlagged; cases s.cfg.flagOrder <;> rfl

@[simp] theorem writeFlagged_sp (r : Reg) (v : Byte) (b : Bool) (s : State) : (writeFlagged r v b s).sp = s.sp := by
  unfold writeFlagged; cases s.cfg.flagOrder <;> rfl

@[simp] theorem writeFlagged_dt (r : Reg) (v : Byte) (b : Bool) (s : State) : (writeFlagged r v b s).dt = s.dt := by
  unfold writeFlagged; cases s.cfg.flagOrder <;> rfl

@[simp] theorem writeFlagged_st (r : Reg) (v : Byte) (b : Bool) (s : State) : (writeFlagged r v b s).st = s.st := by
  unfold writeFlagged; cases s.cfg.flagOrder <;> rfl

@[simp] theorem writeFlagged_wait (r : Reg) (v : Byte) (b : Bool) (s : State) : (writeFlagged r v b s).wait = s.wait := by
  unfold writeFlagged; cases s.cfg.flagOrder <;> rfl

@[simp] theorem writeFlagged_drawPending (r : Reg) (v : Byte) (b : Bool) (s : State) : (writeFlagged r v b s).drawPending = s.drawPending := by
  unfold writeFlagged; cases s.cfg.flagOrder <;> rfl

@[simp] theorem writeFlagged_fb (r : Reg) (v : Byte) (b : Bool) (s : State) : (writeFlagged r v b s).fb = s.fb := by
  unfold writeFlagged; cases s.cfg.flagOrder <;> rfl

@[simp] theorem writeFlagged_mem (r : Reg) (v : Byte) (b : Bool) (s : State) : (writeFlagged r v b s).mem = s.mem := by
  unfold writeFlagged; cases s.cfg.flagOrder <;> rfl

@[simp] theorem writeFlagged_fault (r : Reg) (v : Byte) (b : Bool) (s : State) : (writeFlagged r v b s).fault = s.fault := by
  unfold writeFlagged; cases s.cfg.flagOrder <;> rfl

@[simp] theorem writeFlagged_beep (r : Reg) (v : Byte) (b : Bool) (s : State) : (writeFlagged r v b s).beep = s.beep := by
  unfold writeFlagged; cases s.cfg.flagOrder <;> rfl

@[simp] theorem writeFlagged_inputs (r : Reg) (v : Byte) (b : Bool) (s : State) : (writeFlagged r v b s).inputs = s.inputs := by
  unfold writeFlagged; cases s.cfg.flagOrder <;> rfl

@[simp] theorem writeFlagged_tick (r : Reg) (v : Byte) (b : Bool) (s : State) : (writeFlagged r v b s).tick = s.tick := by
  unfold writeFlagged; cases s.cfg.flagOrder <;> rfl

@[simp] theorem writeFlagged_cfg (r : Reg) (v : Byte) (b : Bool) (s : State) : (writeFlagged r v b s).cfg = s.cfg := by
  unfold writeFlagged; cases s.cfg.flagOrder <;> rfl

@[simp] theorem writeFlagged_peek (r : Reg) (v : Byte) (b : Bool) (s : State) (a : Nat) :
    (writeFlagged r v b s).peek a = s.peek a := by simp [State.peek]

/-! ### The call stack (`10_state.md` R27, R28) -/

/-- A push with room stores at `stack[sp]` and counts it. -/
theorem State.push_some {s : State} (h : s.sp.val < 16) (v : Word) :
    s.push v = some { s with stack := s.stack.set s.sp.val v h, sp := ⟨s.sp.val + 1, Nat.succ_lt_succ h⟩ } := dif_pos h

/-- A push with sixteen addresses held does nothing. -/
theorem State.push_none {s : State} (h : s.sp = 16) (v : Word) : s.push v = none :=
  dif_neg (by rw [h]; decide)

/-- A pop of a held address reads the slot below `sp` and uncounts it. -/
theorem State.pop_some {s : State} (h : 0 < s.sp.val) :
    s.pop = some (s.stack[s.sp.val - 1]'(by omega), { s with sp := ⟨s.sp.val - 1, by omega⟩ }) := dif_pos h

/-- A pop with no address held does nothing. -/
theorem State.pop_none {s : State} (h : s.sp = 0) : s.pop = none :=
  dif_neg (by rw [h]; decide)

theorem State.sp_cases (s : State) : s.sp.val < 16 ∨ s.sp = 16 := by
  rcases Nat.lt_or_ge s.sp.val 16 with h | h
  · exact .inl h
  · exact .inr (Fin.ext (Nat.le_antisymm (Nat.le_of_lt_succ s.sp.isLt) h))

theorem State.sp_pos_cases (s : State) : 0 < s.sp.val ∨ s.sp = 0 := by
  rcases Nat.eq_zero_or_pos s.sp.val with h | h
  · exact .inr (Fin.ext h)
  · exact .inl h

/-! ### The instructions that may stop -/

/-- `CALL` answers a next state exactly with room on the stack. -/
theorem execCall_cases (nnn : BitVec 12) (s : State) :
    (∃ h : s.sp.val < 16, execCall nnn s = .next { s with
      stack := s.stack.set s.sp.val s.pc h, sp := ⟨s.sp.val + 1, Nat.succ_lt_succ h⟩, pc := extendAddr nnn }) ∨
    (s.sp = 16 ∧ execCall nnn s = .fault (.stackOverflow s.instrAddr)) := by
  rcases s.sp_cases with h | h
  · exact .inl ⟨h, by rw [execCall, State.push_some h]; rfl⟩
  · exact .inr ⟨h, by rw [execCall, State.push_none h]; rfl⟩

/-- `RET` answers a next state exactly with an address on the stack. -/
theorem execRet_cases (s : State) :
    (∃ h : 0 < s.sp.val, execRet s = .next { s with
      sp := ⟨s.sp.val - 1, by omega⟩, pc := s.stack[s.sp.val - 1]'(by omega) }) ∨
    (s.sp = 0 ∧ execRet s = .fault (.stackUnderflow s.instrAddr)) := by
  rcases s.sp_pos_cases with h | h
  · exact .inl ⟨h, by rw [execRet, State.pop_some h]; rfl⟩
  · exact .inr ⟨h, by rw [execRet, State.pop_none h]; rfl⟩

theorem decimalDigits_length (v : Byte) : (decimalDigits v).length = 3 := rfl

theorem State.regsUpTo_length (s : State) (r : Reg) : (s.regsUpTo r).length = r.val + 1 := by
  simp only [State.regsUpTo, List.length_take, Vector.length_toList]
  omega

/-- The byte `STM` stores at offset `k`. -/
theorem State.regsUpTo_getD (s : State) (r k : Reg) (h : k.val ≤ r.val) (d : Byte) :
    (s.regsUpTo r).getD k.val d = s.reg k := by
  have hk : k.val < r.val + 1 := by omega
  simp [State.regsUpTo, State.reg, List.getD, hk]

/-- `BCD` stores three digits or faults at the first address outside memory. -/
theorem execBcd_cases (x : Reg) (s : State) :
    (effectiveAddr s 0 + 3 ≤ s.cfg.memSize ∧
      execBcd x s = .next (s.pokeAll (effectiveAddr s 0) (decimalDigits (s.reg x)))) ∨
    (s.cfg.memSize < effectiveAddr s 0 + 3 ∧
      execBcd x s = .fault (.outOfBounds (max (effectiveAddr s 0) s.cfg.memSize) .write)) := by
  rcases writeBytes_cases s (effectiveAddr s 0) (decimalDigits (s.reg x)) (by simp [decimalDigits]) with ⟨h, e⟩ | ⟨h, e⟩
  · exact .inl ⟨h, by rw [execBcd, e]; rfl⟩
  · exact .inr ⟨h, by rw [execBcd, e]; rfl⟩

/-- `STM` stores its registers or faults at the first address outside memory. -/
theorem execStm_cases (x : Reg) (s : State) :
    (effectiveAddr s 0 + (x.val + 1) ≤ s.cfg.memSize ∧
      execStm x s = .next (s.pokeAll (effectiveAddr s 0) (s.regsUpTo x))) ∨
    (s.cfg.memSize < effectiveAddr s 0 + (x.val + 1) ∧
      execStm x s = .fault (.outOfBounds (max (effectiveAddr s 0) s.cfg.memSize) .write)) := by
  have hne : s.regsUpTo x ≠ [] := by
    intro h
    have := s.regsUpTo_length x
    rw [h] at this
    simp at this
  rcases writeBytes_cases s (effectiveAddr s 0) (s.regsUpTo x) hne with ⟨h, e⟩ | ⟨h, e⟩ <;> rw [s.regsUpTo_length] at h
  · exact .inl ⟨h, by rw [execStm, e]; rfl⟩
  · exact .inr ⟨h, by rw [execStm, e]; rfl⟩

/-- `LDM` loads its registers or faults at the first address outside memory. -/
theorem execLdm_cases (x : Reg) (s : State) :
    (effectiveAddr s 0 + (x.val + 1) ≤ s.cfg.memSize ∧
      execLdm x s = .next (s.loadRegs ((List.range (x.val + 1)).map fun k => s.peek (effectiveAddr s 0 + k)))) ∨
    (s.cfg.memSize < effectiveAddr s 0 + (x.val + 1) ∧
      execLdm x s = .fault (.outOfBounds (max (effectiveAddr s 0) s.cfg.memSize) .read)) := by
  rcases readBytes_cases s (effectiveAddr s 0) (x.val + 1) with ⟨h, e⟩ | ⟨h, e⟩
  · exact .inl ⟨h.resolve_left (Nat.succ_ne_zero _), by rw [execLdm, e]⟩
  · exact .inr ⟨h.2, by rw [execLdm, e]; rfl⟩

/-- `DRW` draws its sprite or faults at the first address outside memory; with no rows it reads nothing. -/
theorem execDrw_cases (x y : Reg) (n : Nat) (s : State) :
    ((n = 0 ∨ effectiveAddr s 0 + n ≤ s.cfg.memSize) ∧ ∀ d, d = drawRows (s.reg x).toNat (s.reg y).toNat
        ((List.range n).map fun k => s.peek (effectiveAddr s 0 + k)) (s.fb, false) →
      execDrw x y n s = .next ((s.setFrame d.1).setReg VF (flagByte d.2))) ∨
    ((0 < n ∧ s.cfg.memSize < effectiveAddr s 0 + n) ∧
      execDrw x y n s = .fault (.outOfBounds (max (effectiveAddr s 0) s.cfg.memSize) .read)) := by
  rcases readBytes_cases s (effectiveAddr s 0) n with ⟨h, e⟩ | ⟨h, e⟩
  · exact .inl ⟨h, by rintro _ rfl; rw [execDrw, e]⟩
  · exact .inr ⟨h, by rw [execDrw, e]; rfl⟩

/-- The key a value names, or the fault of the non-default `KEYSEL`. -/
theorem selectKey_cases (v : Byte) (s : State) :
    ((s.cfg.keySelect = .lowNibble ∨ v.toNat ≤ 15) ∧ selectKey v s = .ok (lowNibble v)) ∨
    (s.cfg.keySelect = .faultAbove15 ∧ 15 < v.toNat ∧ selectKey v s = .error (.keyCode v s.instrAddr)) := by
  unfold selectKey
  cases h : s.cfg.keySelect with
  | lowNibble => exact .inl ⟨.inl rfl, rfl⟩
  | faultAbove15 =>
    by_cases hv : v.toNat ≤ 15
    · exact .inl ⟨.inr hv, if_pos hv⟩
    · exact .inr ⟨rfl, by omega, if_neg hv⟩

/-- `SKP` skips by the key's level, or stops under the non-default `KEYSEL`. -/
theorem execSkp_cases (x : Reg) (s : State) :
    ((s.cfg.keySelect = .lowNibble ∨ (s.reg x).toNat ≤ 15) ∧
      execSkp x s = .next (s.skipIf (s.keyPressed (lowNibble (s.reg x))))) ∨
    (s.cfg.keySelect = .faultAbove15 ∧ 15 < (s.reg x).toNat ∧
      execSkp x s = .fault (.keyCode (s.reg x) s.instrAddr)) := by
  rcases selectKey_cases (s.reg x) s with ⟨h, e⟩ | ⟨h, hv, e⟩
  · exact .inl ⟨h, by rw [execSkp, e]⟩
  · exact .inr ⟨h, hv, by rw [execSkp, e]; rfl⟩

/-- `SKNP` skips by the key's level, or stops under the non-default `KEYSEL`. -/
theorem execSknp_cases (x : Reg) (s : State) :
    ((s.cfg.keySelect = .lowNibble ∨ (s.reg x).toNat ≤ 15) ∧
      execSknp x s = .next (s.skipIf (!s.keyPressed (lowNibble (s.reg x))))) ∨
    (s.cfg.keySelect = .faultAbove15 ∧ 15 < (s.reg x).toNat ∧
      execSknp x s = .fault (.keyCode (s.reg x) s.instrAddr)) := by
  rcases selectKey_cases (s.reg x) s with ⟨h, e⟩ | ⟨h, hv, e⟩
  · exact .inl ⟨h, by rw [execSknp, e]⟩
  · exact .inr ⟨h, hv, by rw [execSknp, e]; rfl⟩

end Sys2Proof.Machine
end

