-- ==== Sys2Proof/Laws/Step.lean ====
section
/-! SUPPORT. What a step can do, said once (`40_step_cycle.md` R90), and what its parts leave in each field. -/

namespace Sys2Proof.Machine

/-- A running step whose fetch succeeds runs the fetched word. -/
theorem step_running {s : State} (hf : s.fault = none) (hw : s.wait = .running)
    (hpc : s.pc.toNat + 1 < s.cfg.memSize) :
    step s = afterExec (execWord (s.peek s.pc.toNat ++ s.peek (s.pc.toNat + 1)) s) := by
  simp only [step, stepOnce, hf, hw, runStep, readWord_ok hpc]

/-- A running step whose fetch leaves memory faults. -/
theorem step_fetch_fault {s : State} (hf : s.fault = none) (hw : s.wait = .running)
    (hpc : s.cfg.memSize ≤ s.pc.toNat + 1) : step s = .fault (.outOfBounds s.pc.toNat .fetch) := by
  simp only [step, stepOnce, hf, hw, runStep, readWord_error hpc, raise]

/-- A waiting step. -/
theorem step_awaiting {s : State} {r : Reg} (hf : s.fault = none) (hw : s.wait = .awaiting r) : step s = waitStep r s := by
  simp only [step, stepOnce, hf, hw]

/-- A step of a faulted machine. -/
theorem step_faulted {s : State} {f : Fault} (hf : s.fault = some f) : step s = .fault f := by
  simp only [step, stepOnce, hf]

/-- Whatever a step that completes did: it was an idle wait, a resuming wait, or one instruction and the timer phase. -/
theorem step_cases {s t : State} (h : step s = .next t) :
    s.fault = none ∧
    ((∃ r, s.wait = .awaiting r ∧ s.lowestPressed = none ∧ t = idle s) ∨
     (∃ r k, s.wait = .awaiting r ∧ s.lowestPressed = some k ∧ t = resume r k s) ∨
     (∃ i u, s.wait = .running ∧ s.pc.toNat + 1 < s.cfg.memSize ∧
       decodeWord (s.peek s.pc.toNat ++ s.peek (s.pc.toNat + 1)) = .ok i ∧ exec i s.advance = .next u ∧ t = endStep u)) := by
  cases hf : s.fault with
  | some f => rw [step_faulted hf] at h; cases h
  | none =>
    refine ⟨rfl, ?_⟩
    cases hw : s.wait with
    | awaiting r =>
      rw [step_awaiting hf hw, waitStep] at h
      cases hk : s.lowestPressed with
      | none => rw [hk] at h; cases h; exact .inl ⟨r, rfl, rfl, rfl⟩
      | some k => rw [hk] at h; cases h; exact .inr (.inl ⟨r, k, rfl, rfl, rfl⟩)
    | running =>
      rcases Nat.lt_or_ge (s.pc.toNat + 1) s.cfg.memSize with hpc | hpc
      · rw [step_running hf hw hpc, execWord] at h
        cases hd : decodeWord (s.peek s.pc.toNat ++ s.peek (s.pc.toNat + 1)) with
        | error e => rw [hd] at h; cases h
        | ok i =>
          rw [hd] at h
          change afterExec (exec i s.advance) = _ at h
          cases he : exec i s.advance with
          | next u => rw [he] at h; cases h; exact .inr (.inr ⟨i, u, rfl, hpc, rfl, he, rfl⟩)
          | fault f => rw [he] at h; cases h
          | refused r => rw [he] at h; cases h
      · rw [step_fetch_fault hf hw hpc] at h; cases h

/-- What the end of a step leaves. -/
theorem endStep_eq (s : State) : endStep s = { s with
    dt := countDown s.dt, st := countDown s.st, beep := decide (s.st = 1),
    inputs := s.inputs.tail, tick := s.tick + 1 } := rfl

/-- What a resuming step leaves. -/
theorem resume_eq (r k : Reg) (s : State) :
    resume r k s = endStep ((s.setReg r (BitVec.ofNat 8 k.val)).setWait .running) := rfl

/-- What an idle step leaves under the default `WAIT_TICKS_TIMERS`. -/
theorem idle_frozen {s : State} (h : s.cfg.waitTicksTimers = false) :
    idle s = { s with beep := false, inputs := s.inputs.tail, tick := s.tick + 1 } := by
  rw [idle, h]; rfl

/-- What an idle step leaves where `WAIT_TICKS_TIMERS` is set. -/
theorem idle_ticking {s : State} (h : s.cfg.waitTicksTimers = true) : idle s = endStep s := by
  rw [idle, h]; rfl

/-- Whatever an idle step leaves, only the timers, the beep and the model's input fields may differ. -/
theorem idle_eq (s : State) : idle s = { s with
    dt := (idle s).dt, st := (idle s).st, beep := (idle s).beep, inputs := s.inputs.tail, tick := s.tick + 1 } := by
  cases h : s.cfg.waitTicksTimers with
  | false => rw [idle_frozen h]
  | true => rw [idle_ticking h]; rfl

end Sys2Proof.Machine
end

