-- ==== Sys2Proof/Laws/Frame.lean ====
section
/-! SUPPORT. The frame of each shared update: the components it may write, and no other; and what the sampled keys, the timers
and the offsets of a block access come to. -/

namespace Sys2Proof.Machine

/-- A frame may be widened. -/
theorem OnlyWrites.mono {p q : Field → Prop} {s t : State} (h : OnlyWrites p s t) (hpq : ∀ f, p f → q f) : OnlyWrites q s t :=
  fun f hf => h f fun hp => hf (hpq f hp)

theorem setReg_frame (s : State) (x : Reg) (v : Byte) : OnlyWrites (among [.v x]) s (s.setReg x v) := by
  intro f hf; cases f <;> simp_all [among, Field.Same, State.peek]

theorem setPc_frame (s : State) (v : Word) : OnlyWrites (among [.pc]) s (s.setPc v) := by
  intro f hf; cases f <;> simp_all [among, Field.Same]

theorem setIndex_frame (s : State) (v : Word) : OnlyWrites (among [.index]) s (s.setIndex v) := by
  intro f hf; cases f <;> simp_all [among, Field.Same]

theorem setDelay_frame (s : State) (v : Byte) : OnlyWrites (among [.delay]) s (s.setDelay v) := by
  intro f hf; cases f <;> simp_all [among, Field.Same]

theorem setSound_frame (s : State) (v : Byte) : OnlyWrites (among [.sound]) s (s.setSound v) := by
  intro f hf; cases f <;> simp_all [among, Field.Same]

theorem setWait_frame (s : State) (w : WaitState) : OnlyWrites (among [.wait]) s (s.setWait w) := by
  intro f hf; cases f <;> simp_all [among, Field.Same]

theorem poke_frame (s : State) (a : Nat) (v : Byte) : OnlyWrites (among [.byte a]) s (s.poke a v) := by
  intro f hf; cases f <;> simp_all [among, Field.Same]

theorem setFrame_frame (s : State) (d : FrameBuffer) :
    OnlyWrites (fun f => f = .drawPending ∨ ∃ x y, f = .pixel x y) s (s.setFrame d) := by
  intro f hf; cases f <;> simp_all [Field.Same]

theorem writeFlagged_frame (r : Reg) (v : Byte) (b : Bool) (s : State) :
    OnlyWrites (among [.v r, .v VF]) s (writeFlagged r v b s) := by
  intro f hf; cases f <;> simp_all [among, Field.Same, writeFlagged_reg]

/-- What the flag and result writes leave, by `VF_ORDER`. -/
theorem writeFlagged_spec (r : Reg) (v : Byte) (b : Bool) (s : State) :
    ResultAndFlag r v (flagByte b) s (writeFlagged r v b s) := by
  refine ⟨?_, ?_, ?_, writeFlagged_frame r v b s⟩
  · intro h; simp [writeFlagged_reg, h, Ne.symm h]
  · intro h ho; simp [writeFlagged_reg, h, ho]
  · intro h ho; simp [writeFlagged_reg, h, ho]

theorem pokeAll_frame {s : State} {a : Nat} {l : List Byte} :
    OnlyWrites (fun f => ∃ k, k < l.length ∧ f = .byte (a + k)) s (s.pokeAll a l) := by
  intro f hf
  have e := State.pokeAll_eq l a s
  cases f with
  | byte b =>
    show (s.pokeAll a l).peek b = s.peek b
    rw [State.pokeAll_peek]
    split
    · next hab =>
      have hl : ¬ b - a < l.length := fun hl => hf ⟨b - a, hl, by rw [Nat.add_sub_cancel' hab]⟩
      simp [List.getD, List.getElem?_eq_none (Nat.not_lt.1 hl)]
    · rfl
  | _ => rw [e]; rfl

theorem endStep_frame (s : State) : OnlyWrites (among [.delay, .sound, .beep, .inputs, .tick]) s (endStep s) := by
  intro f hf; cases f <;> simp_all [among, Field.Same, endStep]

/-! ### Timers and keys -/

theorem countDown_toNat (v : Byte) : (countDown v).toNat = v.toNat - 1 := by revert v; decide

theorem eq_one_iff (v : Byte) : decide (v = 1) = true ↔ v.toNat = 1 := by revert v; decide

/-- No key is found exactly when none is pressed. -/
theorem lowestPressed_none {s : State} : s.lowestPressed = none ↔ ∀ k, s.keyPressed k = false := by
  simp [State.lowestPressed]

/-- The key found is pressed. -/
theorem lowestPressed_pressed {s : State} {k : Reg} (h : s.lowestPressed = some k) : s.keyPressed k = true := by
  simpa using List.find?_some h

/-- The key found is the smallest pressed one. -/
theorem lowestPressed_some {s : State} {k : Reg} (hk : s.keyPressed k = true)
    (hj : ∀ j, j < k → s.keyPressed j = false) : s.lowestPressed = some k := by
  rw [State.lowestPressed, List.find?_eq_some_iff_getElem]
  refine ⟨hk, k.val, by simp, by simp, ?_⟩
  intro j hjk
  simpa using hj _ hjk

/-! ### Offsets of a block access -/

/-- The first offset outside memory is where `readBytes` and `writeBytes` fault. -/
theorem FirstOutside.addr {s : State} {n k : Nat} (h : FirstOutside s n k) :
    effectiveAddr s k = max (effectiveAddr s 0) s.cfg.memSize ∧ s.cfg.memSize < effectiveAddr s 0 + n := by
  obtain ⟨hk, ho, hj⟩ := h
  cases k with
  | zero => simp only [effectiveAddr] at *; omega
  | succ k => have := hj k (by omega); simp only [effectiveAddr] at *; omega

/-- A block access that leaves memory has a first offset outside. -/
theorem exists_firstOutside {s : State} {n : Nat} (hn : 0 < n) (h : s.cfg.memSize < effectiveAddr s 0 + n) :
    ∃ k, FirstOutside s n k := by
  refine ⟨s.cfg.memSize - effectiveAddr s 0, ?_, ?_, ?_⟩
  · simp only [effectiveAddr] at *; omega
  · simp only [effectiveAddr] at *; omega
  · intro j hj; simp only [effectiveAddr] at *; omega

/-- The decoder builds well-formed instructions only. -/
theorem decodeWord_wellFormed {w : Word} {i : Instr} (h : decodeWord w = .ok i) : WellFormed i = true := by
  obtain ⟨r, hr, -, rfl⟩ := row_of_decodeWord h
  have all : ∀ r ∈ opcodeRows, WellFormed (r.build w) = true := by
    simp [opcodeRows, opcodeRows0to7, opcodeRows8, opcodeRows9toD, opcodeRowsEF, WellFormed, fieldN_lt]
  exact all r hr

end Sys2Proof.Machine
end

