-- ==== Sys2Proof/Laws/Inversion.lean ====
section
/-! SUPPORT. What an instruction or a step can do, said once: from `exec i s = .next t` or from `step s` to the update that was
made, so that a proof about every instruction has one case for each kind of update and unfolds no meaning. -/

namespace Sys2Proof.Machine

/-- The ways an instruction completes, one constructor for each kind of update of the state. -/
inductive Completes (s : State) : Instr → State → Prop where
  | call (nnn : BitVec 12) (h : s.sp.val < 16) : Completes s (.call nnn) { s with
      stack := s.stack.set s.sp.val s.pc h, sp := ⟨s.sp.val + 1, Nat.succ_lt_succ h⟩, pc := extendAddr nnn }
  | ret (h : 0 < s.sp.val) : Completes s .ret { s with
      sp := ⟨s.sp.val - 1, by omega⟩, pc := s.stack[s.sp.val - 1]'(by omega) }
  | jump {i : Instr} {v : Word} (nnn : BitVec 12)
      (h : i = .jp nnn ∧ v = extendAddr nnn ∨ i = .jpv0 nnn ∧ v = offsetTarget nnn s) : Completes s i (s.setPc v)
  | skip {i : Instr} (c : Bool) (h : (∃ x nn, i = .se x nn ∨ i = .sne x nn) ∨ (∃ x y, i = .ser x y ∨ i = .sner x y) ∨
      ∃ x, i = .skp x ∨ i = .sknp x) : Completes s i (s.skipIf c)
  | result {i : Instr} (x : Reg) (v : Byte) (h : (∃ nn, i = .ld x nn ∨ i = .add x nn ∨ i = .rnd x nn) ∨
      (∃ y, i = .mov x y ∨ i = .or x y ∨ i = .and x y ∨ i = .xor x y) ∨ i = .lddt x) : Completes s i (s.setReg x v)
  | flagged {i : Instr} (x y : Reg) (v : Byte) (b : Bool)
      (h : i = .addr x y ∨ i = .sub x y ∨ i = .shr x y ∨ i = .subn x y ∨ i = .shl x y) :
      Completes s i (writeFlagged x v b s)
  | index {i : Instr} (v : Word) (h : (∃ nnn, i = .ldi nnn) ∨ ∃ x, i = .addi x ∨ i = .font x) :
      Completes s i (s.setIndex v)
  | store {i : Instr} (x : Reg) (l : List Byte)
      (h : i = .bcd x ∧ l = decimalDigits (s.reg x) ∨ i = .stm x ∧ l = s.regsUpTo x)
      (hl : effectiveAddr s 0 + l.length ≤ s.cfg.memSize) : Completes s i (s.pokeAll (effectiveAddr s 0) l)
  | block (x : Reg) (h : effectiveAddr s 0 + (x.val + 1) ≤ s.cfg.memSize) :
      Completes s (.ldm x) (s.loadRegs ((List.range (x.val + 1)).map fun k => s.peek (effectiveAddr s 0 + k)))
  | clear : Completes s .cls (s.setFrame FrameBuffer.blank)
  | draw (x y : Reg) (n : Nat) (h : n = 0 ∨ effectiveAddr s 0 + n ≤ s.cfg.memSize) (d : Canvas)
      (hd : d = drawRows (s.reg x).toNat (s.reg y).toNat
        ((List.range n).map fun k => s.peek (effectiveAddr s 0 + k)) (s.fb, false)) :
      Completes s (.drw x y n) ((s.setFrame d.1).setReg VF (flagByte d.2))
  | wait (x : Reg) : Completes s (.wkey x) (s.setWait (.awaiting x))
  | delay (x : Reg) : Completes s (.stdt x) (s.setDelay (s.reg x))
  | sound (x : Reg) : Completes s (.stst x) (s.setSound (s.reg x))

/-- An instruction that answers a next state completes in one of these ways. -/
theorem exec_completes {i : Instr} {s t : State} (h : exec i s = .next t) : Completes s i t := by
  cases i with
  | cls => cases h; exact .clear
  | ret => rcases execRet_cases s with ⟨hs, e⟩ | ⟨_, e⟩ <;> simp only [exec, e] at h <;> cases h; exact .ret hs
  | jp n => cases h; exact .jump n (.inl ⟨rfl, rfl⟩)
  | call n => rcases execCall_cases n s with ⟨hs, e⟩ | ⟨_, e⟩ <;> simp only [exec, e] at h <;> cases h; exact .call n hs
  | se x nn => cases h; exact .skip _ (by simp)
  | sne x nn => cases h; exact .skip _ (by simp)
  | ser x y => cases h; exact .skip _ (by simp)
  | ld x nn => cases h; exact .result x _ (by simp)
  | add x nn => cases h; exact .result x _ (by simp)
  | mov x y => cases h; exact .result x _ (by simp)
  | or x y => cases h; exact .result x _ (by simp)
  | and x y => cases h; exact .result x _ (by simp)
  | xor x y => cases h; exact .result x _ (by simp)
  | addr x y => cases h; exact .flagged x y _ _ (by simp)
  | sub x y => cases h; exact .flagged x y _ _ (by simp)
  | shr x y => cases h; exact .flagged x y _ _ (by simp)
  | subn x y => cases h; exact .flagged x y _ _ (by simp)
  | shl x y => cases h; exact .flagged x y _ _ (by simp)
  | sner x y => cases h; exact .skip _ (by simp)
  | ldi n => cases h; exact .index _ (by simp)
  | jpv0 n => cases h; exact .jump n (.inr ⟨rfl, rfl⟩)
  | rnd x nn => cases h; exact .result x _ (by simp)
  | drw x y n =>
    rcases execDrw_cases x y n s with ⟨hs, e⟩ | ⟨_, e⟩
    · have e := e _ rfl; simp only [exec, e] at h; cases h; exact .draw x y n hs _ rfl
    · simp only [exec, e] at h; cases h
  | skp x => rcases execSkp_cases x s with ⟨_, e⟩ | ⟨_, _, e⟩ <;> simp only [exec, e] at h <;> cases h; exact .skip _ (by simp)
  | sknp x => rcases execSknp_cases x s with ⟨_, e⟩ | ⟨_, _, e⟩ <;> simp only [exec, e] at h <;> cases h; exact .skip _ (by simp)
  | lddt x => cases h; exact .result x _ (by simp)
  | wkey x => cases h; exact .wait x
  | stdt x => cases h; exact .delay x
  | stst x => cases h; exact .sound x
  | addi x => cases h; exact .index _ (by simp)
  | font x => cases h; exact .index _ (by simp)
  | bcd x =>
    rcases execBcd_cases x s with ⟨hs, e⟩ | ⟨_, e⟩ <;> simp only [exec, e] at h <;> cases h
    exact .store x _ (.inl ⟨rfl, rfl⟩) hs
  | stm x =>
    rcases execStm_cases x s with ⟨hs, e⟩ | ⟨_, e⟩ <;> simp only [exec, e] at h <;> cases h
    exact .store x _ (.inr ⟨rfl, rfl⟩) (by rwa [s.regsUpTo_length])
  | ldm x => rcases execLdm_cases x s with ⟨hs, e⟩ | ⟨_, e⟩ <;> simp only [exec, e] at h <;> cases h; exact .block x hs

/-- Whatever a step does: a faulted machine's report, a wait step, a fetch outside memory, an illegal word, or one
instruction. -/
theorem step_kinds (s : State) :
    (∃ f, s.fault = some f ∧ step s = .fault f) ∨
    (s.fault = none ∧ ∃ r, s.wait = .awaiting r ∧ step s = waitStep r s) ∨
    (s.fault = none ∧ s.wait = .running ∧ s.cfg.memSize ≤ s.pc.toNat + 1 ∧
      step s = .fault (.outOfBounds s.pc.toNat .fetch)) ∨
    (s.fault = none ∧ s.wait = .running ∧ s.pc.toNat + 1 < s.cfg.memSize ∧ ∃ w : Word,
      w = s.peek s.pc.toNat ++ s.peek (s.pc.toNat + 1) ∧ decodeWord w = .error (.illegal w) ∧
      step s = .fault (.illegalOpcode w s.pc)) ∨
    (s.fault = none ∧ s.wait = .running ∧ s.pc.toNat + 1 < s.cfg.memSize ∧ ∃ i,
      decodeWord (s.peek s.pc.toNat ++ s.peek (s.pc.toNat + 1)) = .ok i ∧ step s = afterExec (exec i s.advance)) := by
  cases hf : s.fault with
  | some f => exact .inl ⟨f, rfl, step_faulted hf⟩
  | none =>
    refine .inr ?_
    cases hw : s.wait with
    | awaiting r => exact .inl ⟨rfl, r, rfl, step_awaiting hf hw⟩
    | running =>
      refine .inr ?_
      rcases Nat.lt_or_ge (s.pc.toNat + 1) s.cfg.memSize with hpc | hpc
      · refine .inr ?_
        have e := step_running hf hw hpc
        rw [execWord] at e
        cases hd : decodeWord (s.peek s.pc.toNat ++ s.peek (s.pc.toNat + 1)) with
        | error er =>
          obtain rfl := decodeWord_error hd
          rw [hd] at e
          exact .inl ⟨rfl, rfl, hpc, _, rfl, hd, e⟩
        | ok i => rw [hd] at e; exact .inr ⟨rfl, rfl, hpc, i, rfl, e⟩
      · exact .inl ⟨rfl, rfl, hpc, step_fetch_fault hf hw hpc⟩

end Sys2Proof.Machine
end

