-- ==== Sys2Proof/Laws/PerInstr.lean ====
section
/-! SUPPORT. What holds of every instruction as syntax, one lemma a constructor: an instruction that has a word is read back
from it (`30_encoding.md` R74, R75). -/

namespace Sys2Proof.Laws

/-- The decoder reads the instruction back from its word. -/
def RoundTrip.Statement (i : Instr) : Prop := WellFormed i = true → decodeWord (encode i) = .ok i

/-- A word that row `k` of the opcode map matches decodes by that row. -/
theorem RoundTrip.of_row {w : Word} {i : Instr} {r : OpRow} (k : Nat) (hk : opcodeRows[k]? = some r)
    (hw : w &&& r.mask = r.pattern) (hb : r.build w = i) : decodeWord w = .ok i := by
  rw [decodeWord_of_row (List.mem_of_getElem? hk) hw, hb]

theorem RoundTrip.cls : RoundTrip.Statement .cls := fun _ =>
  RoundTrip.of_row 0 rfl (by decide) (rfl)

theorem RoundTrip.ret : RoundTrip.Statement .ret := fun _ =>
  RoundTrip.of_row 1 rfl (by decide) (rfl)

theorem RoundTrip.jp (nnn : BitVec 12) : RoundTrip.Statement (.jp nnn) := fun _ =>
  RoundTrip.of_row 2 rfl (by simp [encode, mask_address]) (by simp [encode])

theorem RoundTrip.call (nnn : BitVec 12) : RoundTrip.Statement (.call nnn) := fun _ =>
  RoundTrip.of_row 3 rfl (by simp [encode, mask_address]) (by simp [encode])

theorem RoundTrip.se (x : Reg) (nn : Byte) : RoundTrip.Statement (.se x nn) := fun _ =>
  RoundTrip.of_row 4 rfl (by simp [encode, mask_immediate]) (by simp [encode])

theorem RoundTrip.sne (x : Reg) (nn : Byte) : RoundTrip.Statement (.sne x nn) := fun _ =>
  RoundTrip.of_row 5 rfl (by simp [encode, mask_immediate]) (by simp [encode])

theorem RoundTrip.ser (x y : Reg) : RoundTrip.Statement (.ser x y) := fun _ =>
  RoundTrip.of_row 6 rfl (by simp [encode, mask_low_nibble]) (by simp [encode])

theorem RoundTrip.ld (x : Reg) (nn : Byte) : RoundTrip.Statement (.ld x nn) := fun _ =>
  RoundTrip.of_row 7 rfl (by simp [encode, mask_immediate]) (by simp [encode])

theorem RoundTrip.add (x : Reg) (nn : Byte) : RoundTrip.Statement (.add x nn) := fun _ =>
  RoundTrip.of_row 8 rfl (by simp [encode, mask_immediate]) (by simp [encode])

theorem RoundTrip.mov (x y : Reg) : RoundTrip.Statement (.mov x y) := fun _ =>
  RoundTrip.of_row 9 rfl (by simp [encode, mask_low_nibble]) (by simp [encode])

theorem RoundTrip.or (x y : Reg) : RoundTrip.Statement (.or x y) := fun _ =>
  RoundTrip.of_row 10 rfl (by simp [encode, mask_low_nibble]) (by simp [encode])

theorem RoundTrip.and (x y : Reg) : RoundTrip.Statement (.and x y) := fun _ =>
  RoundTrip.of_row 11 rfl (by simp [encode, mask_low_nibble]) (by simp [encode])

theorem RoundTrip.xor (x y : Reg) : RoundTrip.Statement (.xor x y) := fun _ =>
  RoundTrip.of_row 12 rfl (by simp [encode, mask_low_nibble]) (by simp [encode])

theorem RoundTrip.addr (x y : Reg) : RoundTrip.Statement (.addr x y) := fun _ =>
  RoundTrip.of_row 13 rfl (by simp [encode, mask_low_nibble]) (by simp [encode])

theorem RoundTrip.sub (x y : Reg) : RoundTrip.Statement (.sub x y) := fun _ =>
  RoundTrip.of_row 14 rfl (by simp [encode, mask_low_nibble]) (by simp [encode])

theorem RoundTrip.shr (x y : Reg) : RoundTrip.Statement (.shr x y) := fun _ =>
  RoundTrip.of_row 15 rfl (by simp [encode, mask_low_nibble]) (by simp [encode])

theorem RoundTrip.subn (x y : Reg) : RoundTrip.Statement (.subn x y) := fun _ =>
  RoundTrip.of_row 16 rfl (by simp [encode, mask_low_nibble]) (by simp [encode])

theorem RoundTrip.shl (x y : Reg) : RoundTrip.Statement (.shl x y) := fun _ =>
  RoundTrip.of_row 17 rfl (by simp [encode, mask_low_nibble]) (by simp [encode])

theorem RoundTrip.sner (x y : Reg) : RoundTrip.Statement (.sner x y) := fun _ =>
  RoundTrip.of_row 18 rfl (by simp [encode, mask_low_nibble]) (by simp [encode])

theorem RoundTrip.ldi (nnn : BitVec 12) : RoundTrip.Statement (.ldi nnn) := fun _ =>
  RoundTrip.of_row 19 rfl (by simp [encode, mask_address]) (by simp [encode])

theorem RoundTrip.jpv0 (nnn : BitVec 12) : RoundTrip.Statement (.jpv0 nnn) := fun _ =>
  RoundTrip.of_row 20 rfl (by simp [encode, mask_address]) (by simp [encode])

theorem RoundTrip.rnd (x : Reg) (nn : Byte) : RoundTrip.Statement (.rnd x nn) := fun _ =>
  RoundTrip.of_row 21 rfl (by simp [encode, mask_immediate]) (by simp [encode])

theorem RoundTrip.drw (x y : Reg) (n : Nat) : RoundTrip.Statement (.drw x y n) := fun h =>
  RoundTrip.of_row 22 rfl (by simp [encode, mask_family]) (by
    have hn : n < 16 := by simpa [WellFormed] using h
    simp [encode, Nat.mod_eq_of_lt hn])

theorem RoundTrip.skp (x : Reg) : RoundTrip.Statement (.skp x) := fun _ =>
  RoundTrip.of_row 23 rfl (by simp [encode, mask_low_byte]) (by simp [encode])

theorem RoundTrip.sknp (x : Reg) : RoundTrip.Statement (.sknp x) := fun _ =>
  RoundTrip.of_row 24 rfl (by simp [encode, mask_low_byte]) (by simp [encode])

theorem RoundTrip.lddt (x : Reg) : RoundTrip.Statement (.lddt x) := fun _ =>
  RoundTrip.of_row 25 rfl (by simp [encode, mask_low_byte]) (by simp [encode])

theorem RoundTrip.wkey (x : Reg) : RoundTrip.Statement (.wkey x) := fun _ =>
  RoundTrip.of_row 26 rfl (by simp [encode, mask_low_byte]) (by simp [encode])

theorem RoundTrip.stdt (x : Reg) : RoundTrip.Statement (.stdt x) := fun _ =>
  RoundTrip.of_row 27 rfl (by simp [encode, mask_low_byte]) (by simp [encode])

theorem RoundTrip.stst (x : Reg) : RoundTrip.Statement (.stst x) := fun _ =>
  RoundTrip.of_row 28 rfl (by simp [encode, mask_low_byte]) (by simp [encode])

theorem RoundTrip.addi (x : Reg) : RoundTrip.Statement (.addi x) := fun _ =>
  RoundTrip.of_row 29 rfl (by simp [encode, mask_low_byte]) (by simp [encode])

theorem RoundTrip.font (x : Reg) : RoundTrip.Statement (.font x) := fun _ =>
  RoundTrip.of_row 30 rfl (by simp [encode, mask_low_byte]) (by simp [encode])

theorem RoundTrip.bcd (x : Reg) : RoundTrip.Statement (.bcd x) := fun _ =>
  RoundTrip.of_row 31 rfl (by simp [encode, mask_low_byte]) (by simp [encode])

theorem RoundTrip.stm (x : Reg) : RoundTrip.Statement (.stm x) := fun _ =>
  RoundTrip.of_row 32 rfl (by simp [encode, mask_low_byte]) (by simp [encode])

theorem RoundTrip.ldm (x : Reg) : RoundTrip.Statement (.ldm x) := fun _ =>
  RoundTrip.of_row 33 rfl (by simp [encode, mask_low_byte]) (by simp [encode])

end Sys2Proof.Laws
end

