-- ==== Sys2Proof/Tests/Slice0.lean ====
section
/-! SUPPORT. Tests with expected results from the spec's worked examples (`95_test_vectors.md`, vector names in the comments),
and a witness for the hypotheses of every statement that has some. -/

namespace Sys2Proof.Tests

open Sys2Proof Sys2Proof.Machine

/-! ### Helpers -/

/-- The reset state with `f` applied and the word `w` placed where the next step fetches. -/
def ready (w : Nat) (f : State → State := id) : State := (f State.reset).withFetchWord 16 w

/-- Some registers set. -/
def regs : List (Reg × Byte) → State → State
  | [], s => s
  | (r, v) :: rest, s => regs rest (s.setReg r v)

/-- The index register set. -/
def idx (v : Word) (s : State) : State := s.setIndex v

/-- Some consecutive bytes of memory set. -/
def bytes (a : Nat) (l : List Byte) (s : State) : State := s.pokeAll a l

/-- Some return addresses held, all the same. -/
def held (n : Fin 17) (v : Word) (s : State) : State := { s with sp := n, stack := Vector.replicate 16 v }

/-- The key levels with exactly the listed keys pressed. -/
def keys (l : List Reg) : Keys := Vector.ofFn fun k => l.contains k

/-- One step's inputs set by the host. -/
def given (l : List Reg) (random : Byte) (s : State) : State := s.supply [⟨keys l, random⟩]

/-- The parameters changed. -/
def under (c : Config → Config) (s : State) : State := { s with cfg := c s.cfg }

/-- Both timers set. -/
def timers (d t : Byte) (s : State) : State := (s.setDelay d).setSound t

/-- One step completes, in a state that passes the check. -/
def ends (s : State) (p : State → Bool) : Bool :=
  match step s with
  | .next t => p t
  | .fault _ => false
  | .refused _ => false

/-- One step faults, with this fault. -/
def faults (s : State) (f : Fault) : Bool :=
  match step s with
  | .next _ => false
  | .fault g => g == f
  | .refused _ => false

/-- The lit columns of a row. -/
def lit (s : State) (y : Fin 32) : List Nat :=
  ((List.finRange 64).filter fun x => FrameBuffer.pixel s.fb x y).map fun x => x.val

/-! ### Well-formedness and decoding (`95_test_vectors.md` section 2) -/

/-- The one check of `WellFormed`: a row count that does not fit four bits. -/
theorem test_wellFormed_refuses_wide_row_count : WellFormed (.drw 0 0 16) = false ∧ WellFormed (.drw 0 0 15) = true := by
  decide

theorem test_decode_flow : decodeTableWord 16 0x1234 = some (.jp 0x234) ∧ decodeTableWord 16 0x2ABC = some (.call 0xABC) ∧
    decodeTableWord 16 0x00EE = some .ret ∧ decodeTableWord 16 0xB300 = some (.jpv0 0x300) ∧
    decodeTableWord 16 0x3A05 = some (.se 10 0x05) ∧ decodeTableWord 16 0x4A05 = some (.sne 10 0x05) ∧
    decodeTableWord 16 0x5120 = some (.ser 1 2) ∧ decodeTableWord 16 0x9120 = some (.sner 1 2) := by
  refine ⟨?_, ?_, ?_, ?_, ?_, ?_, ?_, ?_⟩ <;> decide

theorem test_decode_alu_immediate : decodeTableWord 16 0x6F80 = some (.ld 15 0x80) ∧
    decodeTableWord 16 0x7001 = some (.add 0 0x01) ∧ decodeTableWord 16 0xC10F = some (.rnd 1 0x0F) := by
  refine ⟨?_, ?_, ?_⟩ <;> decide

theorem test_decode_alu_registers : decodeTableWord 16 0x8120 = some (.mov 1 2) ∧
    decodeTableWord 16 0x8121 = some (.or 1 2) ∧ decodeTableWord 16 0x8122 = some (.and 1 2) ∧
    decodeTableWord 16 0x8123 = some (.xor 1 2) ∧ decodeTableWord 16 0x8124 = some (.addr 1 2) ∧
    decodeTableWord 16 0x8125 = some (.sub 1 2) ∧ decodeTableWord 16 0x8126 = some (.shr 1 2) ∧
    decodeTableWord 16 0x8127 = some (.subn 1 2) ∧ decodeTableWord 16 0x812E = some (.shl 1 2) := by
  refine ⟨?_, ?_, ?_, ?_, ?_, ?_, ?_, ?_, ?_⟩ <;> decide

theorem test_decode_index_memory : decodeTableWord 16 0xA2F0 = some (.ldi 0x2F0) ∧
    decodeTableWord 16 0xF31E = some (.addi 3) ∧ decodeTableWord 16 0xF129 = some (.font 1) ∧
    decodeTableWord 16 0xF233 = some (.bcd 2) ∧ decodeTableWord 16 0xF255 = some (.stm 2) ∧
    decodeTableWord 16 0xF165 = some (.ldm 1) := by
  refine ⟨?_, ?_, ?_, ?_, ?_, ?_⟩ <;> decide

theorem test_decode_display : decodeTableWord 16 0x00E0 = some .cls ∧ decodeTableWord 16 0xD125 = some (.drw 1 2 5) := by
  refine ⟨?_, ?_⟩ <;> decide

theorem test_decode_keypad_timers : decodeTableWord 16 0xE19E = some (.skp 1) ∧ decodeTableWord 16 0xE1A1 = some (.sknp 1) ∧
    decodeTableWord 16 0xF207 = some (.lddt 2) ∧ decodeTableWord 16 0xF50A = some (.wkey 5) ∧
    decodeTableWord 16 0xF315 = some (.stdt 3) ∧ decodeTableWord 16 0xF418 = some (.stst 4) := by
  refine ⟨?_, ?_, ?_, ?_, ?_, ?_⟩ <;> decide

/-- The listed illegal words. -/
theorem test_decode_illegal : decodeWord 0x0000 = .error (.illegal 0x0000) ∧ decodeWord 0x0123 = .error (.illegal 0x0123) ∧
    decodeWord 0x00E1 = .error (.illegal 0x00E1) ∧ decodeWord 0x00FF = .error (.illegal 0x00FF) ∧
    decodeWord 0x5121 = .error (.illegal 0x5121) ∧ decodeWord 0x8128 = .error (.illegal 0x8128) ∧
    decodeWord 0x812F = .error (.illegal 0x812F) ∧ decodeWord 0x9121 = .error (.illegal 0x9121) ∧
    decodeWord 0xE100 = .error (.illegal 0xE100) ∧ decodeWord 0xE19F = .error (.illegal 0xE19F) ∧
    decodeWord 0xF100 = .error (.illegal 0xF100) ∧ decodeWord 0xF10B = .error (.illegal 0xF10B) ∧
    decodeWord 0xF1FF = .error (.illegal 0xF1FF) ∧ decodeWord 0xFFFF = .error (.illegal 0xFFFF) := by
  refine ⟨?_, ?_, ?_, ?_, ?_, ?_, ?_, ?_, ?_, ?_, ?_, ?_, ?_, ?_⟩ <;> decide

/-- A lone byte is no instruction (`30_encoding.md` R70). -/
theorem test_decode_truncated : decode [0x60] = .error .truncated := by decide

/-! ### Control transfer (section 3) -/

/-- F1. -/
theorem test_jp : ends (ready 0x1234) (fun t => t.pc == 0x234) := by decide

/-- F3 and, with fifteen held, the last slot. -/
theorem test_call : ends (ready 0x2300) (fun t => t.pc == 0x300 && t.sp == 1 && t.stack[0] == 0x202) ∧
    ends (ready 0x2300 (held 15 0)) (fun t => t.sp == 16 && t.stack[15] == 0x202) := by decide

/-- F4. -/
theorem test_call_overflow : faults (ready 0x2300 (held 16 0)) (.stackOverflow 0x200) := by decide

/-- F5. -/
theorem test_ret : ends (ready 0x00EE (held 1 0x202)) (fun t => t.pc == 0x202 && t.sp == 0) := by decide

/-- F6 and X5: no beep, no decrement, no other state. -/
theorem test_ret_underflow : faults (ready 0x00EE (timers 5 1)) (.stackUnderflow 0x200) := by decide

/-- F7 and F8. -/
theorem test_jpv0 : ends (ready 0xB300 (regs [(0, 0x10)])) (fun t => t.pc == 0x310) ∧
    ends (ready 0xBFFF (regs [(0, 0xFF)])) (fun t => t.pc == 0x10FE) := by decide

/-- F9, F10. -/
theorem test_se : ends (ready 0x3A05 (regs [(10, 0x05)])) (fun t => t.pc == 0x204) ∧
    ends (ready 0x3A05 (regs [(10, 0x06)])) (fun t => t.pc == 0x202) := by decide

/-- F11, F12. -/
theorem test_sne : ends (ready 0x4A05 (regs [(10, 0x05)])) (fun t => t.pc == 0x202) ∧
    ends (ready 0x4A05 (regs [(10, 0x06)])) (fun t => t.pc == 0x204) := by decide

/-- F13, F14. -/
theorem test_ser : ends (ready 0x5120 (regs [(1, 7), (2, 7)])) (fun t => t.pc == 0x204) ∧
    ends (ready 0x5120 (regs [(1, 7), (2, 8)])) (fun t => t.pc == 0x202) := by decide

/-- F16, F17. -/
theorem test_sner : ends (ready 0x9120 (regs [(1, 7), (2, 8)])) (fun t => t.pc == 0x204) ∧
    ends (ready 0x9120 (regs [(1, 7), (2, 7)])) (fun t => t.pc == 0x202) := by decide

/-- F20: an odd address fetches. -/
theorem test_odd_fetch : ends (ready 0x6ABC (fun s => s.setPc 0x301)) (fun t => t.reg 10 == 0xBC && t.pc == 0x303) := by decide

/-- F21, F22: the last word of memory is fetched, the one after it is not. -/
theorem test_fetch_edge : ends (ready 0x6ABC (fun s => s.setPc 0xFFE)) (fun t => t.reg 10 == 0xBC && t.pc == 0x1000) ∧
    faults (State.reset.setPc 0xFFF) (.outOfBounds 0xFFF .fetch) ∧
    faults (State.reset.setPc 0x1000) (.outOfBounds 0x1000 .fetch) := by decide

/-- X2: nothing loaded. -/
theorem test_empty_memory : faults State.reset (.illegalOpcode 0x0000 0x200) := by decide

/-! ### Register and ALU instructions (section 4) -/

/-- A1. -/
theorem test_ld : ends (ready 0x6F80) (fun t => t.reg VF == 0x80 && t.pc == 0x202) := by decide

/-- A2a, A2c. -/
theorem test_add : ends (ready 0x7001 (regs [(0, 0xFF), (15, 0x55)])) (fun t => t.reg 0 == 0 && t.reg VF == 0x55) ∧
    ends (ready 0x7FFF (regs [(15, 1)])) (fun t => t.reg VF == 0) := by decide

/-- A3. -/
theorem test_mov : ends (ready 0x8120 (regs [(2, 0x5A), (15, 0x55)]))
    (fun t => t.reg 1 == 0x5A && t.reg 2 == 0x5A && t.reg VF == 0x55) := by decide

/-- A4a. -/
theorem test_or : ends (ready 0x8121 (regs [(1, 0xF0), (2, 0x0F), (15, 0x55)]))
    (fun t => t.reg 1 == 0xFF && t.reg VF == 0x55) := by decide

/-- A4b. -/
theorem test_and : ends (ready 0x8122 (regs [(1, 0xF3), (2, 0x3F), (15, 0x55)]))
    (fun t => t.reg 1 == 0x33 && t.reg VF == 0x55) := by decide

/-- A4c, A4d. -/
theorem test_xor : ends (ready 0x8123 (regs [(1, 0xFF), (2, 0x0F), (15, 0x55)]))
    (fun t => t.reg 1 == 0xF0 && t.reg VF == 0x55) ∧
    ends (ready 0x8333 (regs [(3, 0x77)])) (fun t => t.reg 3 == 0) := by decide

/-- A5. -/
theorem test_addr : ends (ready 0x8014 (regs [(0, 0xC8), (1, 0x37), (15, 0x55)]))
    (fun t => t.reg 0 == 0xFF && t.reg VF == 0) ∧
    ends (ready 0x8014 (regs [(0, 0xC8), (1, 0x38), (15, 0x55)])) (fun t => t.reg 0 == 0 && t.reg VF == 1) := by decide

/-- A9, A10, and A9 under the other `VF_ORDER`. -/
theorem test_addr_flag_register : ends (ready 0x8F14 (regs [(15, 0xC8), (1, 0x64)])) (fun t => t.reg VF == 0x2C) ∧
    ends (ready 0x81F4 (regs [(1, 0xFA), (15, 0x0A)])) (fun t => t.reg 1 == 4 && t.reg VF == 1) ∧
    ends (ready 0x8F14 (fun s => under (fun c => { c with flagOrder := .resultThenFlag }) (regs [(15, 0xC8), (1, 0x64)] s)))
      (fun t => t.reg VF == 1) := by decide

/-- A6: a borrow, and equal operands. -/
theorem test_sub : ends (ready 0x8125 (regs [(1, 1), (2, 2), (15, 0x55)])) (fun t => t.reg 1 == 0xFF && t.reg VF == 0) ∧
    ends (ready 0x8125 (regs [(1, 7), (2, 7), (15, 0x55)])) (fun t => t.reg 1 == 0 && t.reg VF == 1) := by decide

/-- A11. -/
theorem test_sub_flag_register : ends (ready 0x8F15 (regs [(15, 5), (1, 5)])) (fun t => t.reg VF == 0) := by decide

/-- A7, and A13 (`SHIFT_SRC = VY`). -/
theorem test_shr : ends (ready 0x8126 (regs [(1, 0xAA), (2, 5)])) (fun t => t.reg 1 == 0x55 && t.reg VF == 0) ∧
    ends (ready 0x8126 (fun s => under (fun c => { c with shiftSource := .vy }) (regs [(1, 0xAA), (2, 5)] s)))
      (fun t => t.reg 1 == 2 && t.reg 2 == 5 && t.reg VF == 1) := by decide

/-- A8. -/
theorem test_subn : ends (ready 0x8127 (regs [(1, 0x10), (2, 1), (15, 0x55)])) (fun t => t.reg 1 == 0xF1 && t.reg VF == 0) ∧
    ends (ready 0x8127 (regs [(1, 1), (2, 0x10), (15, 0x55)])) (fun t => t.reg 1 == 0x0F && t.reg VF == 1) := by decide

/-- A11c. -/
theorem test_subn_flag_register : ends (ready 0x8F17 (regs [(15, 1)])) (fun t => t.reg VF == 0xFF) := by decide

/-- A7, and A13 (`SHIFT_SRC = VY`). -/
theorem test_shl : ends (ready 0x810E (regs [(0, 0xAA), (1, 0x81)])) (fun t => t.reg 1 == 2 && t.reg VF == 1) ∧
    ends (ready 0x812E (fun s => under (fun c => { c with shiftSource := .vy }) (regs [(1, 0xAA), (2, 0x85)] s)))
      (fun t => t.reg 1 == 0x0A && t.reg 2 == 0x85 && t.reg VF == 1) := by decide

/-- A14. -/
theorem test_rnd : ends (ready 0xC10F (given [] 0xA7)) (fun t => t.reg 1 == 7 && t.inputs == [] && t.tick == 1) := by decide

/-! ### Index register and memory (section 5) -/

/-- M1. -/
theorem test_ldi : ends (ready 0xA2F0) (fun t => t.index == 0x2F0) := by decide

/-- M3, M4. -/
theorem test_addi : ends (ready 0xF31E (fun s => idx 0xFFF (regs [(3, 1), (15, 0x55)] s)))
    (fun t => t.index == 0x1000 && t.reg VF == 0x55) ∧
    ends (ready 0xF31E (fun s => idx 0xFFFF (regs [(3, 1)] s))) (fun t => t.index == 0) := by decide

/-- M5c, M5d. -/
theorem test_font : ends (ready 0xF129 (regs [(1, 0x0F)])) (fun t => t.index == 0x4B) ∧
    ends (ready 0xF129 (regs [(1, 0x1A)])) (fun t => t.index == 0x32) := by decide

/-- M7a. -/
theorem test_bcd : ends (ready 0xF233 (fun s => idx 0xFFD (regs [(2, 0x7B)] s)))
    (fun t => t.peek 0xFFD == 1 && t.peek 0xFFE == 2 && t.peek 0xFFF == 3 && t.index == 0xFFD) := by decide

/-- M7b, M7c. -/
theorem test_bcd_edge : faults (ready 0xF233 (idx 0xFFE)) (.outOfBounds 0x1000 .write) ∧
    faults (ready 0xF233 (idx 0x1000)) (.outOfBounds 0x1000 .write) := by decide

/-- M8. -/
theorem test_stm : ends (ready 0xF255 (fun s => idx 0x400 (regs [(0, 0x11), (1, 0x22), (2, 0x33), (3, 0x44)] s)))
    (fun t => t.peek 0x400 == 0x11 && t.peek 0x401 == 0x22 && t.peek 0x402 == 0x33 && t.peek 0x403 == 0 &&
      t.index == 0x400) := by decide

/-- M10, M11. -/
theorem test_stm_edge : ends (ready 0xF055 (fun s => idx 0xFFF (regs [(0, 0x77)] s))) (fun t => t.peek 0xFFF == 0x77) ∧
    faults (ready 0xF155 (idx 0xFFF)) (.outOfBounds 0x1000 .write) := by decide

/-- M12, M15. -/
theorem test_ldm : ends (ready 0xF165 (fun s => bytes 0x400 [0xAA, 0xBB, 0xCC] (idx 0x400 (regs [(2, 0x99)] s))))
    (fun t => t.reg 0 == 0xAA && t.reg 1 == 0xBB && t.reg 2 == 0x99 && t.index == 0x400) ∧
    ends (ready 0xF465 (idx 5)) (fun t => t.reg 0 == 0x20 && t.reg 1 == 0x60 && t.reg 4 == 0x70) := by decide

/-- M14. -/
theorem test_ldm_edge : faults (ready 0xF165 (idx 0xFFF)) (.outOfBounds 0x1000 .read) := by decide

/-! ### Display (section 6) -/

/-- D9b. -/
theorem test_cls : ends (ready 0x00E0 (regs [(15, 0x55)]))
    (fun t => t.drawPending && t.reg VF == 0x55 && lit t 0 == []) := by decide

/-- D3 (columns wrap), D4 (rows wrap), and the second step of D7 (a partial overlap collides). -/
theorem test_drw : ends (ready 0xD121 (fun s => bytes 0x300 [0xFF] (idx 0x300 (regs [(1, 63), (2, 3)] s))))
      (fun t => lit t 3 == [0, 1, 2, 3, 4, 5, 6, 63] && t.reg VF == 0 && t.drawPending) ∧
    ends (ready 0xD122 (fun s => bytes 0x300 [0x80, 0x40] (idx 0x300 (regs [(1, 10), (2, 31)] s))))
      (fun t => lit t 31 == [10] && lit t 0 == [11] && t.reg VF == 0) ∧
    ends (ready 0xD321 (fun s => bytes 0x300 [0xC0] (idx 0x300 (regs [(3, 1)]
      (s.setFrame (FrameBuffer.toggle (FrameBuffer.toggle s.fb 0 0) 1 0))))))
      (fun t => lit t 0 == [0, 2] && t.reg VF == 1) := by
  refine ⟨?_, ?_, ?_⟩ <;> decide

/-- D5 (no rows, no read), D8b (both coordinates from the old `VF`), D10 (the second row is outside memory). -/
theorem test_drw_edges : ends (ready 0xD120 (fun s => idx 0xFFFF (regs [(15, 0x55)] s)))
      (fun t => lit t 0 == [] && t.reg VF == 0 && t.drawPending) ∧
    ends (ready 0xDFF1 (fun s => bytes 0x300 [0x80] (idx 0x300 (regs [(15, 37)] s))))
      (fun t => lit t 5 == [37] && t.reg VF == 0) ∧
    faults (ready 0xD122 (fun s => bytes 0xFFF [0x80] (idx 0xFFF s))) (.outOfBounds 0x1000 .read) := by
  refine ⟨?_, ?_, ?_⟩ <;> decide

/-! ### Keypad and timers (section 7) -/

/-- K1a, K11a. -/
theorem test_skp : ends (ready 0xE19E (fun s => given [4] 0 (regs [(1, 4)] s))) (fun t => t.pc == 0x204) ∧
    ends (ready 0xE19E (fun s => given [10] 0 (regs [(1, 0x1A)] s))) (fun t => t.pc == 0x204) := by decide

/-- K2a, K2b. -/
theorem test_sknp : ends (ready 0xE1A1 (fun s => given [] 0 (regs [(1, 4)] s))) (fun t => t.pc == 0x204) ∧
    ends (ready 0xE1A1 (fun s => given [4] 0 (regs [(1, 4)] s))) (fun t => t.pc == 0x202) := by decide

/-- K3, steps 1 and 2. -/
theorem test_wkey : ends (ready 0xF50A (timers 0x0A 0x0A))
    (fun t => t.wait == .awaiting 5 && t.pc == 0x202 && t.dt == 9 && t.st == 9) ∧
    ends (given [] 0 (timers 9 9 (State.reset.setWait (.awaiting 5))))
      (fun t => t.wait == .awaiting 5 && t.dt == 9 && t.st == 9 && t.pc == 0x200) := by decide

/-- K4 step 5, K6. -/
theorem test_wkey_resumes : ends (given [6] 0 (timers 0 1 (State.reset.setWait (.awaiting 5))))
    (fun t => t.reg 5 == 6 && t.wait == .running && t.st == 0 && t.beep) ∧
    ends (given [3, 9, 11] 0 (State.reset.setWait (.awaiting 5))) (fun t => t.reg 5 == 3 && t.pc == 0x200) := by decide

/-- K3 step 2 under `WAIT_TICKS_TIMERS`. -/
theorem test_wait_ticking : ends (given [] 0 (timers 9 9 (under (fun c => { c with waitTicksTimers := true })
    (State.reset.setWait (.awaiting 5))))) (fun t => t.wait == .awaiting 5 && t.dt == 8 && t.st == 8) := by decide

/-- K8a. -/
theorem test_lddt : ends (ready 0xF207 (timers 9 0)) (fun t => t.reg 2 == 9 && t.dt == 8) := by decide

/-- K9c, K9d. -/
theorem test_stdt : ends (ready 0xF315 (timers 7 0)) (fun t => t.dt == 0) ∧
    ends (ready 0xF315 (regs [(3, 0xFF)])) (fun t => t.dt == 0xFE) := by decide

/-- K10a, K10b. -/
theorem test_stst : ends (ready 0xF418 (regs [(4, 2)])) (fun t => t.st == 1 && !t.beep) ∧
    ends (ready 0xF418 (regs [(4, 1)])) (fun t => t.st == 0 && t.beep) := by decide

/-! ### The host (section 8) -/

/-- X1: the fault is recorded and reported again. -/
theorem test_faulted_machine : (hostTick (hostTick State.reset).1).2 = some (.illegalOpcode 0x0000 0x200) := by decide

/-- X5: a faulting tick emits no beep, even right after a step that did. -/
theorem test_fault_no_beep : (hostTick { ready 0x00EE (timers 5 1) with beep := true }).1.beep = false := by decide

/-- X6, X7 in small: the last byte that fits, and one too many. -/
theorem test_load : load 0xFFE [1, 2] State.reset = .ok (State.reset.pokeAll 0xFFE [1, 2]) ∧
    load 0xFFE [1, 2, 3] State.reset = .error (.capacityExceeded 0xFFE 3) := by
  refine ⟨rfl, rfl⟩

/-- `60_exceptions.md` R200. -/
theorem test_fault_codes : (Fault.outOfBounds 0 .read).code = some 1 ∧ (Fault.stackOverflow 0).code = some 2 ∧
    (Fault.stackUnderflow 0).code = some 3 ∧ (Fault.capacityExceeded 0 0).code = some 4 ∧
    (Fault.illegalOpcode 0 0).code = some 5 := by decide

/-! ### Witnesses: for each statement with hypotheses, a state and operands that meet them, at the edges of its clauses -/

/-- `DecodeReadsBackEncode`. -/
theorem witness_decodeReadsBackEncode : WellFormed (.drw 15 15 15) = true := by decide

/-- `EncodeRebuildsDecodedWord`. -/
theorem witness_encodeRebuildsDecodedWord : decodeWord 0xDFFF = .ok (.drw 15 15 15) := by decide

/-- `IllegalWordsAreTheListedOnes`: each line of the list at an edge, and a legal word beside it. -/
theorem witness_illegalWords : decodeWord 0x0FFF = .error (.illegal 0x0FFF) ∧ decodeWord 0x5001 = .error (.illegal 0x5001) ∧
    decodeWord 0x800F = .error (.illegal 0x800F) ∧ decodeWord 0x900F = .error (.illegal 0x900F) ∧
    decodeWord 0xE09F = .error (.illegal 0xE09F) ∧ decodeWord 0xF064 = .error (.illegal 0xF064) ∧
    decodeWord 0x1000 = .ok (.jp 0) := by
  refine ⟨?_, ?_, ?_, ?_, ?_, ?_, ?_⟩ <;> decide

/-- `ByteAccessesAreBoundsChecked`: the last byte of memory and the first address past it. -/
theorem witness_byteAccesses : 4095 < State.reset.cfg.memSize ∧ State.reset.cfg.memSize ≤ 4096 := by decide

/-- `InstructionReadIsBigEndian`: the last whole word and the address after it. -/
theorem witness_instructionRead : 4094 + 1 < State.reset.cfg.memSize ∧ State.reset.cfg.memSize ≤ 4095 + 1 := by decide

/-- `StoredInstructionIsFetched`, `StepRunsDecodedInstruction` and the first clause of `FetchFaultsExactlyOutsideMemory`, at the
last word of memory; the instruction completes. -/
theorem witness_stepRuns : ∃ s : State, s.pc.toNat = 4094 ∧ s.fault = none ∧ s.wait = .running ∧
    s.pc.toNat + 1 < s.cfg.memSize ∧ decodeWord (fetched s) = .ok (.ld 0 5) ∧
    ∃ t, exec (.ld 0 5) s.advance = .next t :=
  ⟨ready 0x6005 (fun s => s.setPc 4094), by decide, rfl, rfl, by decide, by decide, _, rfl⟩

/-- `StepRunsDecodedInstruction`, the clause of the fault. -/
theorem witness_stepRuns_fault : ∃ s : State, s.fault = none ∧ s.wait = .running ∧ s.pc.toNat + 1 < s.cfg.memSize ∧
    decodeWord (fetched s) = .ok .ret ∧ ∃ f, exec .ret s.advance = .fault f :=
  ⟨ready 0x00EE, rfl, rfl, by decide, by decide, _, rfl⟩

/-- `LoadCopiesOrFails`: the largest ROM that fits and the smallest that does not. -/
theorem witness_load : 0x200 + (List.replicate 3584 (0 : Byte)).length ≤ State.reset.cfg.memSize ∧
    State.reset.cfg.memSize < 0x200 + (List.replicate 3585 (0 : Byte)).length := by
  rw [List.length_replicate, List.length_replicate]; decide

/-- `ResetLeavesListedValues`: a font byte, and the first address after the font. -/
theorem witness_reset : defaultConfig.font[79]? = some 0x80 ∧ defaultConfig.font.length ≤ 80 := by decide

/-- `FetchFaultsExactlyOutsideMemory` and `FaultsComeInTheOrderOfTheStep`, a fetch outside memory. -/
theorem witness_fetchFault : ∃ s : State, s.fault = none ∧ s.wait = .running ∧ s.cfg.keySelect = .lowNibble ∧
    s.cfg.memSize = s.pc.toNat + 1 ∧ step s = .fault (.outOfBounds 0xFFF .fetch) :=
  ⟨State.reset.setPc 0xFFF, rfl, rfl, rfl, by decide, rfl⟩

/-- `IllegalWordFaults` and `FaultsComeInTheOrderOfTheStep`, an illegal word. -/
theorem witness_illegalWordFaults : ∃ s : State, s.fault = none ∧ s.wait = .running ∧ s.cfg.keySelect = .lowNibble ∧
    s.pc.toNat + 1 < s.cfg.memSize ∧ decodeWord (fetched s) = .error (.illegal (fetched s)) ∧ ∃ f, step s = .fault f :=
  ⟨ready 0x8008, rfl, rfl, rfl, by decide, by decide, _, rfl⟩

/-- `FaultsComeInTheOrderOfTheStep`, an instruction's own fault, at an offset of 1. -/
theorem witness_ownFault : ∃ s : State, s.fault = none ∧ s.cfg.keySelect = .lowNibble ∧
    step s = .fault (.outOfBounds 0x1000 .read) :=
  ⟨ready 0xF165 (idx 0xFFF), rfl, rfl, rfl⟩

/-- `KeyWaitStepIdlesOrResumes`, no key pressed, under both values of `WAIT_TICKS_TIMERS`. -/
theorem witness_keyWait_idle : ∃ s u : State, s.fault = none ∧ s.wait = .awaiting 5 ∧ (∀ k, s.keyPressed k = false) ∧
    s.cfg.waitTicksTimers = false ∧ u.fault = none ∧ u.wait = .awaiting 5 ∧ (∀ k, u.keyPressed k = false) ∧
    u.cfg.waitTicksTimers = true :=
  ⟨given [] 0 (State.reset.setWait (.awaiting 5)),
   given [] 0 (under (fun c => { c with waitTicksTimers := true }) (State.reset.setWait (.awaiting 5))),
   rfl, rfl, by decide, rfl, rfl, rfl, by decide, rfl⟩

/-- `KeyWaitStepIdlesOrResumes`, the highest key alone, and key 0 among others. -/
theorem witness_keyWait_resume : ∃ s u : State, s.fault = none ∧ s.wait = .awaiting 5 ∧ s.keyPressed 15 = true ∧
    (∀ j, j < 15 → s.keyPressed j = false) ∧ u.fault = none ∧ u.wait = .awaiting 5 ∧ u.keyPressed 0 = true ∧
    (∀ j, j < 0 → u.keyPressed j = false) :=
  ⟨given [15] 0 (State.reset.setWait (.awaiting 5)), given [0, 15] 0 (State.reset.setWait (.awaiting 5)),
   rfl, rfl, by decide, by decide, rfl, rfl, by decide, by decide⟩

/-- `OnlyWkeySuspendsOnlyAKeyResumes`: a step that suspends, one that resumes, one that idles. -/
theorem witness_onlyWkey :
    (∃ s t : State, step s = .next t ∧ s.wait = .running ∧ t.wait = .awaiting 5) ∧
    (∃ s t : State, step s = .next t ∧ s.wait = .awaiting 5 ∧ t.wait = .running) ∧
    (∃ s t : State, step s = .next t ∧ s.wait = .awaiting 5 ∧ t.wait = .awaiting 5) :=
  ⟨⟨ready 0xF50A, _, rfl, rfl, rfl⟩, ⟨given [6] 0 (State.reset.setWait (.awaiting 5)), _, rfl, rfl, rfl⟩,
   ⟨given [] 0 (State.reset.setWait (.awaiting 5)), _, rfl, rfl, rfl⟩⟩

/-- `FaultedMachineStaysFaulted`: a faulted machine, and a healthy one that faults. -/
theorem witness_faulted : (∃ s : State, s.fault = some (.stackUnderflow 0x200)) ∧
    ∃ s : State, s.fault = none ∧ step s = .fault (.stackUnderflow 0x200) :=
  ⟨⟨recordFault (.stackUnderflow 0x200) State.reset, rfl⟩, ⟨ready 0x00EE, rfl, rfl⟩⟩

/-- `WritersOfMemoryAndPixels`: an instruction that writes neither. -/
theorem witness_writersOfMemory : ∃ s t : State, exec (.ld 1 2) s = .next t ∧
    (∀ x, Instr.ld 1 2 ≠ .stm x ∧ Instr.ld 1 2 ≠ .bcd x) ∧ Instr.ld 1 2 ≠ .cls ∧ ∀ x y n, Instr.ld 1 2 ≠ .drw x y n :=
  ⟨State.reset, _, rfl, by simp, by simp, by simp⟩

/-- `WritersOfIndexStackTimersWait`: an instruction that writes none of them. -/
theorem witness_writersOfIndex : ∃ s t : State, exec (.ld 1 2) s = .next t ∧
    (∀ nnn x, Instr.ld 1 2 ≠ .ldi nnn ∧ Instr.ld 1 2 ≠ .addi x ∧ Instr.ld 1 2 ≠ .font x) ∧
    (∀ nnn, Instr.ld 1 2 ≠ .call nnn) ∧ Instr.ld 1 2 ≠ .ret ∧ (∀ x, Instr.ld 1 2 ≠ .stdt x) ∧
    (∀ x, Instr.ld 1 2 ≠ .stst x) ∧ ∀ x, Instr.ld 1 2 ≠ .wkey x :=
  ⟨State.reset, _, rfl, by simp, by simp, by simp, by simp, by simp, by simp⟩

/-- `WritersOfTheFlagRegister`: a carry, and a destination `VF`. -/
theorem witness_writersOfFlag :
    (∃ s t : State, exec (.addr 0 1) s = .next t ∧ t.reg VF ≠ s.reg VF) ∧
    ∃ s t : State, exec (.ld VF 2) s = .next t ∧ t.reg VF ≠ s.reg VF :=
  ⟨⟨regs [(0, 255), (1, 1)] State.reset, _, rfl, by decide⟩, ⟨State.reset, _, rfl, by decide⟩⟩

/-- `WritersOfTheProgramCounter`: a jump and a taken skip. -/
theorem witness_writersOfPc :
    (∃ s t : State, exec (.jp 0x234) s = .next t ∧ t.pc ≠ s.pc) ∧
    ∃ s t : State, exec (.se 0 0) s = .next t ∧ t.pc ≠ s.pc :=
  ⟨⟨State.reset, _, rfl, by decide⟩, ⟨State.reset, _, rfl, by decide⟩⟩

/-- `NoInstructionWritesHostFields`. -/
theorem witness_hostFields : ∃ s t : State, exec .cls s.advance = .next t ∧ step s = .next (endStep t) :=
  ⟨ready 0x00E0, _, rfl, rfl⟩

/-- `StepKeepsTheInvariant`: a state that meets it, with a byte of memory changed and a return address held, steps. -/
theorem witness_invariant : ∃ s t : State, Inv s ∧ s.mem ≠ [] ∧ s.sp = 1 ∧ step s = .next t :=
  ⟨ready 0x2300 (held 1 0x202), _,
   ⟨by unfold MemoryCanonical; decide, by unfold StackInMemory; decide, by unfold PcBounded; decide⟩,
   by decide, rfl, rfl⟩

/-- `ReachableStatesMeetTheInvariant`: after one tick of a program that stays where it is. -/
theorem witness_reachable : ∃ s : State, Reachable s ∧ s.fault = none ∧ s.tick = 1 :=
  ⟨_, .tick _ _ (.boot defaultConfig [0x12, 0x00] _ rfl) rfl, rfl, rfl⟩

/-- `DrawFlagHasNoEffectOnExecution`: two different states that step. -/
theorem witness_drawFlag : ∃ s t : State, hideDrawFlag s = hideDrawFlag t ∧ s.drawPending ≠ t.drawPending ∧
    ∃ u, step s = .next u :=
  ⟨ready 0x6005, { ready 0x6005 with drawPending := true }, rfl, by decide, _, rfl⟩

/-- `SoundTimerIsInvisibleToPrograms`: two different states that step. -/
theorem witness_sound : ∃ s t : State, hideSound s = hideSound t ∧ s.st ≠ t.st ∧ ∃ u, step s = .next u :=
  ⟨ready 0x6005, { ready 0x6005 with st := 1, beep := true }, rfl, by decide, _, rfl⟩

/-- `CallPushesTheReturnAddress` and `ReturnAfterCallComesBack`: fifteen held, and sixteen. -/
theorem witness_call : (∃ s : State, s.sp.val < 16 ∧ s.sp = 15) ∧ ∃ s : State, s.sp = 16 :=
  ⟨⟨held 15 0x202 State.reset, by decide, rfl⟩, ⟨held 16 0x202 State.reset, rfl⟩⟩

/-- `ReturnAfterCallComesBack`: a state with the stack as the call left it. -/
theorem witness_returnAfterCall : ∃ s t u : State, exec (.call 0x300) s = .next t ∧ u.stack = t.stack ∧ u.sp = t.sp ∧
    u.pc ≠ t.pc :=
  ⟨State.reset, _, { held 1 0 State.reset with pc := 0x304, stack := (Vector.replicate 16 0).set 0 0x200 },
   rfl, by decide, by decide, by decide⟩

/-- `RetPopsTheReturnAddress`: one held, and none. -/
theorem witness_ret : (∃ s : State, 0 < s.sp.val ∧ s.sp = 1) ∧ ∃ s : State, s.sp = 0 :=
  ⟨⟨held 1 0x202 State.reset, by decide, rfl⟩, ⟨State.reset, rfl⟩⟩

/-- The statements with `VF_ORDER` (`AddRegistersCarriesIntoFlag` and the like): a state for each value of it. -/
theorem witness_flagOrder : (∃ s : State, s.cfg.flagOrder = .flagThenResult) ∧ ∃ s : State, s.cfg.flagOrder = .resultThenFlag :=
  ⟨⟨State.reset, rfl⟩, ⟨under (fun c => { c with flagOrder := .resultThenFlag }) State.reset, rfl⟩⟩

/-- `ShiftsPutTheLostBitInFlag`: a value for each value of `SHIFT_SRC`. -/
theorem witness_shifts :
    (∃ (s : State) (v : Byte), (s.cfg.shiftSource = .vx → v = s.reg 1) ∧ (s.cfg.shiftSource = .vy → v = s.reg 2) ∧ v = 1) ∧
    ∃ (s : State) (v : Byte), (s.cfg.shiftSource = .vx → v = s.reg 1) ∧ (s.cfg.shiftSource = .vy → v = s.reg 2) ∧ v = 0x80 :=
  ⟨⟨regs [(1, 1)] State.reset, 1, by decide, by decide, rfl⟩,
   ⟨under (fun c => { c with shiftSource := .vy }) (regs [(2, 0x80)] State.reset), 0x80, by decide, by decide, rfl⟩⟩

/-- `RndMasksTheRandomByte`: inputs set and none set. -/
theorem witness_rnd : (∃ (s : State) (i : StepInput) (rest : List StepInput), s.inputs = i :: rest) ∧
    ∃ s : State, s.inputs = [] :=
  ⟨⟨given [] 0xA7 State.reset, _, _, rfl⟩, ⟨State.reset, rfl⟩⟩

/-- `BcdStoresThreeDigits`: the last base that fits, and a first offset outside of 2 and of 0. -/
theorem witness_bcd : (∃ s : State, effectiveAddr s 2 < s.cfg.memSize ∧ effectiveAddr s 2 = 4095) ∧
    (∃ s : State, FirstOutside s 3 2) ∧ ∃ s : State, FirstOutside s 3 0 :=
  ⟨⟨idx 0xFFD State.reset, by decide, by decide⟩, ⟨idx 0xFFE State.reset, by unfold FirstOutside; decide⟩,
   ⟨idx 0x1000 State.reset, by unfold FirstOutside; decide⟩⟩

/-- `StmStoresTheRegisterBlock` and `LdmLoadsTheRegisterBlock`: the last byte for one register, the last sixteen for all, and
a first offset outside at either end. -/
theorem witness_block : (∃ s : State, effectiveAddr s (0 : Reg).val < s.cfg.memSize ∧ effectiveAddr s 0 = 4095) ∧
    (∃ s : State, effectiveAddr s (15 : Reg).val < s.cfg.memSize ∧ effectiveAddr s 15 = 4095) ∧
    (∃ s : State, FirstOutside s ((15 : Reg).val + 1) 15) ∧ ∃ s : State, FirstOutside s ((0 : Reg).val + 1) 0 :=
  ⟨⟨idx 0xFFF State.reset, by decide, by decide⟩, ⟨idx 0xFF0 State.reset, by decide, by decide⟩,
   ⟨idx 0xFF1 State.reset, by unfold FirstOutside; decide⟩, ⟨idx 0x1000 State.reset, by unfold FirstOutside; decide⟩⟩

/-- `DrwTogglesTheCoveredPixels`: no rows and fifteen rows inside memory, and a first row outside. -/
theorem witness_drw : (∃ s : State, ∀ k, k < 0 → effectiveAddr s k < s.cfg.memSize) ∧
    (∃ s : State, (15 : Nat) < 16 ∧ (∀ k, k < 15 → effectiveAddr s k < s.cfg.memSize) ∧ effectiveAddr s 14 = 4095) ∧
    ∃ s : State, FirstOutside s 2 1 :=
  ⟨⟨idx 0xFFFF State.reset, by decide⟩, ⟨idx 0xFF1 State.reset, by decide, by decide, by decide⟩,
   ⟨idx 0xFFF State.reset, by unfold FirstOutside; decide⟩⟩

/-- `DrwTogglesTheCoveredPixels`: a covered pixel across the right edge, lit and unlit, and a pixel the sprite misses. -/
theorem witness_covers : Covers 63 3 [0xFF] 0 3 ∧ ¬ Covers 63 3 [0xFF] 7 3 ∧
    (∃ s : State, FrameBuffer.pixel s.fb 0 3 = false) ∧ ∃ s : State, FrameBuffer.pixel s.fb 0 3 = true := by
  refine ⟨⟨1, 0, 0xFF, by decide, rfl, by decide, by decide, by decide⟩, ?_, ⟨State.reset, by decide⟩,
    ⟨State.reset.setFrame (FrameBuffer.toggle State.reset.fb 0 3), by decide⟩⟩
  rintro ⟨col, row, b, hc, -, -, hx, -⟩
  have h7 : (7 : Fin 64).val = 7 := rfl
  omega

/-- `DrawingTwiceRestoresThePixels`: two draws of one row. -/
theorem witness_drawingTwice : ∃ s t u : State, (1 : Reg) ≠ VF ∧ (2 : Reg) ≠ VF ∧ exec (.drw 1 2 1) s = .next t ∧
    exec (.drw 1 2 1) t = .next u :=
  ⟨State.reset, _, _, by decide, by decide, rfl, rfl⟩

/-- `KeySkipsTestTheKeyLevel`: the default on 255, and the other value of `KEYSEL` on 15 and on 16. -/
theorem witness_keySkips :
    (∃ s : State, (15 : Reg).val = (s.reg 1).toNat % 16 ∧ s.cfg.keySelect = .lowNibble ∧ (s.reg 1).toNat = 255) ∧
    (∃ s : State, (15 : Reg).val = (s.reg 1).toNat % 16 ∧ s.cfg.keySelect = .faultAbove15 ∧ (s.reg 1).toNat ≤ 15) ∧
    ∃ s : State, (0 : Reg).val = (s.reg 1).toNat % 16 ∧ s.cfg.keySelect = .faultAbove15 ∧ 15 < (s.reg 1).toNat :=
  ⟨⟨regs [(1, 255)] State.reset, by decide, rfl, by decide⟩,
   ⟨under (fun c => { c with keySelect := .faultAbove15 }) (regs [(1, 15)] State.reset), by decide, rfl, by decide⟩,
   ⟨under (fun c => { c with keySelect := .faultAbove15 }) (regs [(1, 16)] State.reset), by decide, rfl, by decide⟩⟩

/-- The non-default `KEYSEL` faults above 15, with the instruction's own address (`92_eei_decisions.md` D11). -/
theorem test_keysel_fault : faults (ready 0xE19E (fun s => under (fun c => { c with keySelect := .faultAbove15 })
    (regs [(1, 16)] s))) (.keyCode 16 0x200) := by decide

end Sys2Proof.Tests
end

/-! PROOFS of the family `10_state.md`: which instruction writes which component, and which components no program can see. -/

namespace Sys2Proof.Machine

/-! ### What copying bytes into memory leaves -/

@[simp] theorem State.pokeAll_pc (l : List Byte) (a : Nat) (s : State) : (s.pokeAll a l).pc = s.pc := by
  rw [State.pokeAll_eq]

@[simp] theorem State.pokeAll_stack (l : List Byte) (a : Nat) (s : State) : (s.pokeAll a l).stack = s.stack := by
  rw [State.pokeAll_eq]

@[simp] theorem State.pokeAll_sp (l : List Byte) (a : Nat) (s : State) : (s.pokeAll a l).sp = s.sp := by
  rw [State.pokeAll_eq]

@[simp] theorem State.pokeAll_dt (l : List Byte) (a : Nat) (s : State) : (s.pokeAll a l).dt = s.dt := by
  rw [State.pokeAll_eq]

@[simp] theorem State.pokeAll_st (l : List Byte) (a : Nat) (s : State) : (s.pokeAll a l).st = s.st := by
  rw [State.pokeAll_eq]

@[simp] theorem State.pokeAll_wait (l : List Byte) (a : Nat) (s : State) : (s.pokeAll a l).wait = s.wait := by
  rw [State.pokeAll_eq]

@[simp] theorem State.pokeAll_fault (l : List Byte) (a : Nat) (s : State) : (s.pokeAll a l).fault = s.fault := by
  rw [State.pokeAll_eq]

@[simp] theorem State.pokeAll_beep (l : List Byte) (a : Nat) (s : State) : (s.pokeAll a l).beep = s.beep := by
  rw [State.pokeAll_eq]

@[simp] theorem State.pokeAll_inputs (l : List Byte) (a : Nat) (s : State) : (s.pokeAll a l).inputs = s.inputs := by
  rw [State.pokeAll_eq]

@[simp] theorem State.pokeAll_tick (l : List Byte) (a : Nat) (s : State) : (s.pokeAll a l).tick = s.tick := by
  rw [State.pokeAll_eq]

/-! ### The state with the components no instruction reads replaced (`10_state.md` R30, R32) -/

/-- This state with another redraw flag, and another sound timer and sound output (the pair). -/
def State.withUnread (s : State) (flag : Bool) (sound : Byte × Bool) : State :=
  { s with drawPending := flag, st := sound.1, beep := sound.2 }

/-- What the timer phase makes of the sound timer and its output (`40_step_cycle.md` R96, R97). -/
def soundTick (sound : Byte × Bool) : Byte × Bool := (countDown sound.1, decide (sound.1 = 1))

/-- The operation reads neither the redraw flag nor the sound timer and its output: whatever they are, it ends the same
way, and each of the two comes to what it alone determines. -/
def Unseen (m : State → Host.Outcome State Fault Refusal) (s : State) : Prop :=
  ∃ (f : Bool → Bool) (g : Byte × Bool → Byte × Bool), ∀ flag sound,
    m (s.withUnread flag sound) = seenThrough (fun u => u.withUnread (f flag) (g sound)) (m s)

section
variable (s : State) (flag : Bool) (sound : Byte × Bool)

theorem State.push_withUnread (v : Word) :
    (s.withUnread flag sound).push v = (s.push v).map fun t => t.withUnread flag sound := by
  rcases s.sp_cases with h | h
  · rw [State.push_some h, State.push_some (s := s.withUnread flag sound) h]; rfl
  · rw [State.push_none h, State.push_none (s := s.withUnread flag sound) h]; rfl

theorem State.pop_withUnread :
    (s.withUnread flag sound).pop = s.pop.map fun r => (r.1, r.2.withUnread flag sound) := by
  rcases s.sp_pos_cases with h | h
  · rw [State.pop_some h, State.pop_some (s := s.withUnread flag sound) h]; rfl
  · rw [State.pop_none h, State.pop_none (s := s.withUnread flag sound) h]; rfl

theorem writeFlagged_withUnread (r : Reg) (v : Byte) (b : Bool) :
    writeFlagged r v b (s.withUnread flag sound) = (writeFlagged r v b s).withUnread flag sound := by
  have e : (s.withUnread flag sound).cfg = s.cfg := rfl
  unfold writeFlagged
  rw [e]
  cases s.cfg.flagOrder <;> rfl

theorem readBytes_withUnread (a n : Nat) : readBytes a (s.withUnread flag sound) n = readBytes a s n := by
  induction n generalizing a with
  | zero => rfl
  | succ n ih =>
    have e : readByte a (s.withUnread flag sound) = readByte a s := rfl
    simp only [readBytes, e, ih]

theorem writeBytes_withUnread (a : Nat) (l : List Byte) :
    writeBytes a l (s.withUnread flag sound) = (writeBytes a l s).map fun t => t.withUnread flag sound := by
  induction l generalizing a s with
  | nil => rfl
  | cons b bs ih =>
    rcases Nat.lt_or_ge a s.cfg.memSize with h | h
    · rw [writeBytes, writeBytes, writeByte_ok h, writeByte_ok (s := s.withUnread flag sound) h]
      exact ih (s.poke a b) (a + 1)
    · rw [writeBytes, writeBytes, writeByte_error h, writeByte_error (s := s.withUnread flag sound) h]; rfl

theorem endStep_withUnread : endStep (s.withUnread flag sound) = (endStep s).withUnread flag (soundTick sound) := rfl

theorem idle_withUnread : ∃ g : Byte × Bool → Byte × Bool, ∀ flag sound,
    idle (s.withUnread flag sound) = (idle s).withUnread flag (g sound) := by
  cases h : s.cfg.waitTicksTimers with
  | false =>
    refine ⟨fun p => (p.1, false), fun flag sound => ?_⟩
    rw [idle_frozen h, idle_frozen (s := s.withUnread flag sound) h]; rfl
  | true =>
    refine ⟨soundTick, fun flag sound => ?_⟩
    rw [idle_ticking h, idle_ticking (s := s.withUnread flag sound) h, endStep_withUnread]

end

theorem finish_map (h : State → State) (e : Except Fault State) : finish (e.map h) = seenThrough h (finish e) := by
  cases e <;> rfl

theorem afterExec_withUnread (flag : Bool) (sound : Byte × Bool) (o : Host.Outcome State Fault Refusal) :
    afterExec (seenThrough (fun u => u.withUnread flag sound) o) =
      seenThrough (fun u => u.withUnread flag (soundTick sound)) (afterExec o) := by
  cases o <;> rfl

/-! ### No instruction and no step sees them -/

/-- An operation that commutes with the replacement. -/
theorem Unseen.of_commutes {m : State → Host.Outcome State Fault Refusal} {s : State}
    (h : ∀ flag sound, m (s.withUnread flag sound) = seenThrough (fun u => u.withUnread flag sound) (m s)) : Unseen m s :=
  ⟨id, id, h⟩

theorem unseen_execCall (nnn : BitVec 12) (s : State) : Unseen (execCall nnn) s :=
  .of_commutes fun flag sound => by
    have e : (s.withUnread flag sound).push (s.withUnread flag sound).pc = _ := s.push_withUnread flag sound s.pc
    rw [execCall, e, execCall]
    cases s.push s.pc <;> rfl

theorem unseen_execRet (s : State) : Unseen execRet s :=
  .of_commutes fun flag sound => by
    rw [execRet, s.pop_withUnread, execRet]
    cases s.pop <;> rfl

theorem unseen_execBcd (x : Reg) (s : State) : Unseen (execBcd x) s :=
  .of_commutes fun flag sound => by
    rw [execBcd, writeBytes_withUnread, finish_map]; rfl

theorem unseen_execStm (x : Reg) (s : State) : Unseen (execStm x) s :=
  .of_commutes fun flag sound => by
    rw [execStm, writeBytes_withUnread, finish_map]; rfl

theorem unseen_execLdm (x : Reg) (s : State) : Unseen (execLdm x) s :=
  .of_commutes fun flag sound => by
    have e : readBytes (effectiveAddr (s.withUnread flag sound) 0) (s.withUnread flag sound) (x.val + 1) = _ :=
      readBytes_withUnread s flag sound (effectiveAddr s 0) (x.val + 1)
    rw [execLdm, e, execLdm]
    cases readBytes (effectiveAddr s 0) s (x.val + 1) <;> rfl

/-- `DRW` sets the redraw flag whatever it was. -/
theorem unseen_execDrw (x y : Reg) (n : Nat) (s : State) : Unseen (execDrw x y n) s :=
  ⟨fun _ => true, id, fun flag sound => by
    have e : readBytes (effectiveAddr (s.withUnread flag sound) 0) (s.withUnread flag sound) n = _ :=
      readBytes_withUnread s flag sound (effectiveAddr s 0) n
    rw [execDrw, e, execDrw]
    cases readBytes (effectiveAddr s 0) s n <;> rfl⟩

theorem unseen_execSkp (x : Reg) (s : State) : Unseen (execSkp x) s :=
  .of_commutes fun flag sound => by
    have e : selectKey ((s.withUnread flag sound).reg x) (s.withUnread flag sound) = selectKey (s.reg x) s := rfl
    rw [execSkp, e, execSkp]
    cases selectKey (s.reg x) s <;> rfl

theorem unseen_execSknp (x : Reg) (s : State) : Unseen (execSknp x) s :=
  .of_commutes fun flag sound => by
    have e : selectKey ((s.withUnread flag sound).reg x) (s.withUnread flag sound) = selectKey (s.reg x) s := rfl
    rw [execSknp, e, execSknp]
    cases selectKey (s.reg x) s <;> rfl

/-- `10_state.md` R30, R32: no instruction reads the redraw flag, the sound timer or its output. -/
theorem unseen_exec (i : Instr) (s : State) : Unseen (exec i) s := by
  cases i with
  | cls => exact ⟨fun _ => true, id, fun _ _ => rfl⟩
  | stst x => exact ⟨id, fun sound => (s.reg x, sound.2), fun _ _ => rfl⟩
  | call nnn => exact unseen_execCall nnn s
  | ret => exact unseen_execRet s
  | addr x y => exact .of_commutes fun flag sound => congrArg _ (writeFlagged_withUnread s flag sound x _ _)
  | sub x y => exact .of_commutes fun flag sound => congrArg _ (writeFlagged_withUnread s flag sound x _ _)
  | shr x y => exact .of_commutes fun flag sound => congrArg _ (writeFlagged_withUnread s flag sound x _ _)
  | subn x y => exact .of_commutes fun flag sound => congrArg _ (writeFlagged_withUnread s flag sound x _ _)
  | shl x y => exact .of_commutes fun flag sound => congrArg _ (writeFlagged_withUnread s flag sound x _ _)
  | drw x y n => exact unseen_execDrw x y n s
  | skp x => exact unseen_execSkp x s
  | sknp x => exact unseen_execSknp x s
  | bcd x => exact unseen_execBcd x s
  | stm x => exact unseen_execStm x s
  | ldm x => exact unseen_execLdm x s
  | _ => exact .of_commutes fun _ _ => rfl

theorem unseen_waitStep (r : Reg) (s : State) : Unseen (waitStep r) s := by
  cases hk : s.lowestPressed with
  | some k =>
    refine ⟨id, soundTick, fun flag sound => ?_⟩
    have hk' : (s.withUnread flag sound).lowestPressed = some k := hk
    rw [waitStep, waitStep, hk, hk']; rfl
  | none =>
    obtain ⟨g, hg⟩ := idle_withUnread s
    refine ⟨id, g, fun flag sound => ?_⟩
    have hk' : (s.withUnread flag sound).lowestPressed = none := hk
    rw [waitStep, waitStep, hk, hk']
    exact congrArg _ (hg flag sound)

/-- The timer phase after an instruction, too, lets the sound timer act on itself and its output only. -/
theorem Unseen.afterExec {m : State → Host.Outcome State Fault Refusal} {s : State} (h : Unseen m s) :
    Unseen (fun t => afterExec (m t)) s := by
  obtain ⟨f, g, h⟩ := h
  exact ⟨f, fun sound => soundTick (g sound), fun flag sound =>
    (congrArg Machine.afterExec (h flag sound)).trans (afterExec_withUnread (f flag) (g sound) (m s))⟩

theorem step_withUnread_running {s : State} (hf : s.fault = none) (hw : s.wait = .running)
    (hpc : s.pc.toNat + 1 < s.cfg.memSize) (flag : Bool) (sound : Byte × Bool) :
    step (s.withUnread flag sound) =
      afterExec (execWord (s.peek s.pc.toNat ++ s.peek (s.pc.toNat + 1)) (s.withUnread flag sound)) :=
  step_running (s := s.withUnread flag sound) hf hw hpc

/-- A step reads neither the redraw flag nor the sound timer and its output. -/
theorem unseen_step (s : State) : Unseen step s := by
  rcases step_kinds s with ⟨f, hf, e⟩ | ⟨hf, r, hw, e⟩ | ⟨hf, hw, hpc, e⟩ | ⟨hf, hw, hpc, w, rfl, hd, e⟩ |
    ⟨hf, hw, hpc, i, hd, e⟩
  · exact .of_commutes fun flag sound => by rw [e]; exact step_faulted hf
  · obtain ⟨f, g, h⟩ := unseen_waitStep r s
    exact ⟨f, g, fun flag sound => by rw [e, ← h]; exact step_awaiting hf hw⟩
  · exact .of_commutes fun flag sound => by rw [e]; exact step_fetch_fault hf hw hpc
  · exact .of_commutes fun flag sound => by rw [e, step_withUnread_running hf hw hpc, execWord, hd]; rfl
  · obtain ⟨f, g, h⟩ := (unseen_exec i s.advance).afterExec
    exact ⟨f, g, fun flag sound => by
      rw [e, ← h, step_withUnread_running hf hw hpc, execWord, hd]; rfl⟩

/-! ### What is seen of an outcome -/

theorem seenThrough_seenThrough (h k : State → State) (o : Host.Outcome State Fault Refusal) :
    seenThrough h (seenThrough k o) = seenThrough (fun u => h (k u)) o := by
  cases o <;> rfl

theorem eq_withUnread_of_hideDrawFlag {s t : State} (h : hideDrawFlag s = hideDrawFlag t) :
    t = s.withUnread t.drawPending (s.st, s.beep) := by
  cases s; cases t; cases h; rfl

theorem eq_withUnread_of_hideSound {s t : State} (h : hideSound s = hideSound t) :
    t = s.withUnread s.drawPending (t.st, t.beep) := by
  cases s; cases t; cases h; rfl

theorem hideDrawFlag_step_withUnread (s : State) (flag flag' : Bool) (sound : Byte × Bool) :
    seenThrough hideDrawFlag (step (s.withUnread flag sound)) =
      seenThrough hideDrawFlag (step (s.withUnread flag' sound)) := by
  obtain ⟨f, g, h⟩ := unseen_step s
  rw [h, h, seenThrough_seenThrough, seenThrough_seenThrough]; rfl

theorem hideSound_step_withUnread (s : State) (flag : Bool) (sound sound' : Byte × Bool) :
    seenThrough hideSound (step (s.withUnread flag sound)) = seenThrough hideSound (step (s.withUnread flag sound')) := by
  obtain ⟨f, g, h⟩ := unseen_step s
  rw [h, h, seenThrough_seenThrough, seenThrough_seenThrough]; rfl

/-- Settles O28: the two states are one state under two values of the redraw flag, and no step reads it. -/
theorem drawFlagHasNoEffectOnExecution : Obligations.DrawFlagHasNoEffectOnExecution := by
  intro s t h
  rw [eq_withUnread_of_hideDrawFlag h]
  exact hideDrawFlag_step_withUnread s s.drawPending t.drawPending (s.st, s.beep)

/-- Settles O29: the two states are one state under two values of the sound timer and its output, and no step reads them. -/
theorem soundTimerIsInvisibleToPrograms : Obligations.SoundTimerIsInvisibleToPrograms := by
  intro s t h
  rw [eq_withUnread_of_hideSound h]
  exact hideSound_step_withUnread s s.drawPending (s.st, s.beep) (t.st, t.beep)

/-! ### Which instruction writes which component -/

section
variable {i : Instr} {s t : State} (h : exec i s = .next t)
include h

/-- The fields that no instruction writes: the configuration, the fault status, the sound output and the inputs. -/
theorem exec_hostFields :
    t.cfg = s.cfg ∧ t.fault = s.fault ∧ t.beep = s.beep ∧ t.inputs = s.inputs ∧ t.tick = s.tick := by
  cases exec_completes h <;> simp

theorem exec_index (hi : ∀ nnn x, i ≠ .ldi nnn ∧ i ≠ .addi x ∧ i ≠ .font x) : t.index = s.index := by
  cases exec_completes h with
  | index v hv =>
    rcases hv with ⟨nnn, rfl⟩ | ⟨x, rfl | rfl⟩
    · exact absurd rfl (hi nnn 0).1
    · exact absurd rfl (hi 0 x).2.1
    · exact absurd rfl (hi 0 x).2.2
  | _ => simp

theorem exec_stack (hi : ∀ nnn, i ≠ .call nnn) : t.stack = s.stack := by
  cases exec_completes h with
  | call nnn _ => exact absurd rfl (hi nnn)
  | _ => simp

theorem exec_sp (hcall : ∀ nnn, i ≠ .call nnn) (hret : i ≠ .ret) : t.sp = s.sp := by
  cases exec_completes h with
  | call nnn _ => exact absurd rfl (hcall nnn)
  | ret _ => exact absurd rfl hret
  | _ => simp

theorem exec_dt (hi : ∀ x, i ≠ .stdt x) : t.dt = s.dt := by
  cases exec_completes h with
  | delay x => exact absurd rfl (hi x)
  | _ => simp

theorem exec_st (hi : ∀ x, i ≠ .stst x) : t.st = s.st := by
  cases exec_completes h with
  | sound x => exact absurd rfl (hi x)
  | _ => simp

/-- The wait state after an instruction: `WKEY`'s, or as it was. -/
theorem exec_wait : (∃ x, i = .wkey x ∧ t.wait = .awaiting x) ∨ t.wait = s.wait := by
  cases exec_completes h with
  | wait x => exact .inl ⟨x, rfl, rfl⟩
  | _ => right; simp

end

/-- A block load up to `x[r]` keeps every register above. -/
theorem State.loadRegs_reg_above (s : State) (l : List Byte) (q : Reg) (hl : l.length ≤ q.val) :
    (s.loadRegs l).reg q = s.reg q := by
  rw [State.loadRegs_reg, List.getD_eq_default _ _ hl]

/-- Settles O21: each component has its writers among the ways an instruction completes, and every other way keeps it. -/
theorem writersOfIndexStackTimersWait : Obligations.WritersOfIndexStackTimersWait := by
  intro i s t h
  exact ⟨exec_index h, fun hi => ⟨exec_stack h hi, exec_sp h hi⟩, exec_dt h, exec_st h, fun hi =>
    (exec_wait h).resolve_left fun ⟨x, hx, _⟩ => hi x hx⟩

/-- Settles O22: of the ways an instruction completes, a register result or a block load reaches `VF` only where its
destination is `VF`. -/
theorem writersOfTheFlagRegister : Obligations.WritersOfTheFlagRegister := by
  intro i s t h hv
  cases exec_completes h with
  | flagged x y v b hi => exact .inl ⟨x, y, hi⟩
  | draw x y n => exact .inr (.inl ⟨x, y, n, rfl⟩)
  | result x v hi =>
    obtain rfl : x = VF := by
      by_contra hx
      exact hv (by rw [State.setReg_reg, if_neg (Ne.symm hx)])
    exact .inr (.inr (hi.imp_right (Or.imp_right .inl)))
  | block x =>
    obtain rfl : x = VF := by
      by_contra hx
      refine hv (State.loadRegs_reg_above s _ VF ?_)
      have : x.val ≠ 15 := fun e => hx (Fin.ext e)
      simp only [List.length_map, List.length_range, VF]
      omega
    simp
  | call => exact absurd rfl hv
  | ret => exact absurd rfl hv
  | _ => simp at hv

/-- Settles O23: the ways that write `pc` are the call, the return, the jumps and the skips; a skip not taken leaves it. -/
theorem writersOfTheProgramCounter : Obligations.WritersOfTheProgramCounter := by
  intro i s t h hpc
  cases exec_completes h with
  | call nnn => exact .inl ⟨nnn, .inr (.inl rfl)⟩
  | ret => exact .inr (.inl rfl)
  | jump nnn hi => exact .inl ⟨nnn, hi.imp And.left (.inr ∘ And.left)⟩
  | skip c hi =>
    cases c with
    | true => exact .inr (.inr ⟨rfl, hi⟩)
    | false => exact absurd rfl hpc
  | _ => simp at hpc

/-- Settles O24: no way an instruction completes writes these fields; a step adds only what `endStep` or `idle` does. -/
theorem noInstructionWritesHostFields : Obligations.NoInstructionWritesHostFields := by
  refine ⟨fun i s t h => exec_hostFields h, fun s t h => ?_⟩
  obtain ⟨hf, ⟨r, -, -, rfl⟩ | ⟨r, k, -, -, rfl⟩ | ⟨i, u, -, -, -, hu, rfl⟩⟩ := step_cases h
  · rw [idle_eq]; exact ⟨rfl, hf, rfl, rfl⟩
  · exact ⟨rfl, hf, rfl, rfl⟩
  · obtain ⟨hcfg, hfault, -, hinputs, htick⟩ := exec_hostFields hu
    exact ⟨hcfg, hfault.trans hf, congrArg List.tail hinputs, congrArg (· + 1) htick⟩

/-! ### The wait state from step to step (`10_state.md` R31) -/

theorem idle_wait (s : State) : (idle s).wait = s.wait := by rw [idle_eq]

theorem resume_reg (r k : Reg) (s : State) : ((resume r k s).reg r).toNat = k.val := by
  have e : (resume r k s).reg r = BitVec.ofNat 8 k.val := by simp [resume, endStep]
  rw [e, BitVec.toNat_ofNat]
  omega

/-- Settles O16: by what the step was, an idle wait, a resuming wait or one instruction. -/
theorem onlyWkeySuspendsOnlyAKeyResumes : Obligations.OnlyWkeySuspendsOnlyAKeyResumes := by
  refine ⟨rfl, fun s t h => ?_⟩
  obtain ⟨-, ⟨r, hw, hk, rfl⟩ | ⟨r, k, hw, hk, rfl⟩ | ⟨i, u, hw, -, hd, hu, rfl⟩⟩ := step_cases h
  · have ht := (idle_wait s).trans hw
    refine ⟨fun _ hr => ?_, fun _ _ hr => ?_, fun _ _ hr hq => ?_⟩
    · cases hw.symm.trans hr
    · cases ht.symm.trans hr
    · cases hw.symm.trans hr
      cases ht.symm.trans hq
      exact ⟨rfl, lowestPressed_none.1 hk⟩
  · refine ⟨fun _ hr => ?_, fun _ hr _ => ?_, fun _ _ _ hq => ?_⟩
    · cases hw.symm.trans hr
    · cases hw.symm.trans hr
      exact ⟨k, lowestPressed_pressed hk, resume_reg r k s⟩
    · cases hq
  · refine ⟨fun _ _ hr => ?_, fun _ hr => ?_, fun _ _ hr => ?_⟩
    · rcases exec_wait hu with ⟨x, rfl, hx⟩ | hx
      · cases hx.symm.trans hr
        exact hd
      · cases (hx.trans hw).symm.trans hr
    · cases hw.symm.trans hr
    · cases hw.symm.trans hr

end Sys2Proof.Machine

/-! PROOFS of the family `20_memory.md`: the byte, word and block accesses, and which instructions write memory and pixels. -/

namespace Sys2Proof.Machine

/-! ### Which instruction writes memory, and which the frame buffer (`20_memory.md` R63, `10_state.md` R32, R33) -/

@[simp] theorem State.pokeAll_fb (l : List Byte) (a : Nat) (s : State) : (s.pokeAll a l).fb = s.fb := by
  rw [State.pokeAll_eq]

@[simp] theorem State.pokeAll_drawPending (l : List Byte) (a : Nat) (s : State) :
    (s.pokeAll a l).drawPending = s.drawPending := by
  rw [State.pokeAll_eq]

section
variable {i : Instr} {s t : State} (h : exec i s = .next t)
include h

theorem exec_mem (hi : ∀ x, i ≠ .stm x ∧ i ≠ .bcd x) : t.mem = s.mem := by
  cases exec_completes h with
  | store x l hx =>
    rcases hx with ⟨rfl, -⟩ | ⟨rfl, -⟩
    · exact absurd rfl (hi x).2
    · exact absurd rfl (hi x).1
  | _ => simp

theorem exec_display (hcls : i ≠ .cls) (hdrw : ∀ x y n, i ≠ .drw x y n) : t.fb = s.fb ∧ t.drawPending = s.drawPending := by
  cases exec_completes h with
  | clear => exact absurd rfl hcls
  | draw x y n => exact absurd rfl (hdrw x y n)
  | _ => simp

end

/-- Settles O20: of the ways an instruction completes, only a store writes memory, and only the clear and the draw write the
frame buffer and the redraw flag. -/
theorem writersOfMemoryAndPixels : Obligations.WritersOfMemoryAndPixels := by
  intro i s t h
  exact ⟨exec_mem h, exec_display h⟩

/-! ### Single accesses (`20_memory.md` R52 to R55, R65) -/

/-- Two bytes written at `a` and `a + 1` are read back as one word, the byte at `a` high. -/
theorem readWord_poke_poke {s : State} {a : Nat} (hi lo : Byte) (h : a + 1 < s.cfg.memSize) :
    readWord a ((s.poke a hi).poke (a + 1) lo) = .ok (joinBytes hi lo) := by
  have hhigh : ((s.poke a hi).poke (a + 1) lo).peek a = hi := by simp
  have hlow : ((s.poke a hi).poke (a + 1) lo).peek (a + 1) = lo := by simp
  rw [readWord_ok (by simpa using h), hhigh, hlow, joinBytes]

/-- Settles O5: inside memory a byte access is `peek` or `poke`, whose frame is that byte. -/
theorem byteAccessesAreBoundsChecked : Obligations.ByteAccessesAreBoundsChecked := by
  intro a v s
  exact ⟨readByte_ok, readByte_error, fun ha => ⟨s.poke a v, writeByte_ok ha, by simp, poke_frame s a v⟩,
    writeByte_error⟩

/-- Settles O6: inside memory the word read is its two bytes joined. -/
theorem instructionReadIsBigEndian : Obligations.InstructionReadIsBigEndian := by
  intro a s
  exact ⟨fun ha => ⟨_, readWord_ok ha, toNat_append_add _ _⟩, readWord_error⟩

/-- Settles O7: both writes are inside memory, and neither moves `pc`. -/
theorem storedInstructionIsFetched : Obligations.StoredInstructionIsFetched := by
  intro s hi lo h
  exact ⟨_, _, writeByte_ok (Nat.lt_of_succ_lt h), writeByte_ok h, readWord_poke_poke hi lo h⟩

/-! ### The host's load (`20_memory.md` R60) -/

theorem load_ok {base : Nat} {bytes : List Byte} {s : State} (h : base + bytes.length ≤ s.cfg.memSize) :
    load base bytes s = .ok (s.pokeAll base bytes) := if_pos h

theorem load_error {base : Nat} {bytes : List Byte} {s : State} (h : s.cfg.memSize < base + bytes.length) :
    load base bytes s = .error (.capacityExceeded base bytes.length) := if_neg (Nat.not_le.2 h)

/-- Byte `k` of the bytes copied is read at offset `k`. -/
theorem State.pokeAll_peek_add (s : State) (a : Nat) {l : List Byte} {k : Nat} {v : Byte} (h : l[k]? = some v) :
    (s.pokeAll a l).peek (a + k) = v := by
  rw [State.pokeAll_peek, if_pos (Nat.le_add_right a k), Nat.add_sub_cancel_left, List.getD_eq_getElem?_getD, h,
    Option.getD_some]

/-- Settles O8: where the bytes fit, `load` is the copy, whose frame is the bytes' addresses. -/
theorem loadCopiesOrFails : Obligations.LoadCopiesOrFails := by
  intro base bytes s
  exact ⟨fun h => ⟨_, load_ok h, fun k v => s.pokeAll_peek_add base, pokeAll_frame⟩, load_error⟩

end Sys2Proof.Machine

/-! PROOFS of the family `30_encoding.md`: decoding and encoding undo each other, and which words match no row. -/

namespace Sys2Proof.Laws

/-! ### An instruction is read back from its word (`30_encoding.md` R72, R75) -/

/-- Every well-formed instruction's word decodes to it: one row of the opcode map for each constructor. -/
theorem decodeWord_encode : ∀ i : Instr, RoundTrip.Statement i
  | .cls => RoundTrip.cls
  | .ret => RoundTrip.ret
  | .jp nnn => RoundTrip.jp nnn
  | .call nnn => RoundTrip.call nnn
  | .se x nn => RoundTrip.se x nn
  | .sne x nn => RoundTrip.sne x nn
  | .ser x y => RoundTrip.ser x y
  | .ld x nn => RoundTrip.ld x nn
  | .add x nn => RoundTrip.add x nn
  | .mov x y => RoundTrip.mov x y
  | .or x y => RoundTrip.or x y
  | .and x y => RoundTrip.and x y
  | .xor x y => RoundTrip.xor x y
  | .addr x y => RoundTrip.addr x y
  | .sub x y => RoundTrip.sub x y
  | .shr x y => RoundTrip.shr x y
  | .subn x y => RoundTrip.subn x y
  | .shl x y => RoundTrip.shl x y
  | .sner x y => RoundTrip.sner x y
  | .ldi nnn => RoundTrip.ldi nnn
  | .jpv0 nnn => RoundTrip.jpv0 nnn
  | .rnd x nn => RoundTrip.rnd x nn
  | .drw x y n => RoundTrip.drw x y n
  | .skp x => RoundTrip.skp x
  | .sknp x => RoundTrip.sknp x
  | .lddt x => RoundTrip.lddt x
  | .wkey x => RoundTrip.wkey x
  | .stdt x => RoundTrip.stdt x
  | .stst x => RoundTrip.stst x
  | .addi x => RoundTrip.addi x
  | .font x => RoundTrip.font x
  | .bcd x => RoundTrip.bcd x
  | .stm x => RoundTrip.stm x
  | .ldm x => RoundTrip.ldm x

/-- Settles O2: the bytes of a word decode to what the word decodes to, which is the instruction it encodes. -/
theorem decodeReadsBackEncode : Obligations.DecodeReadsBackEncode := by
  intro i rest hi
  have hw : decodeWord (encode i) = .ok i := decodeWord_encode i hi
  exact ⟨hw, by rw [decode_wordBytes, hw]; rfl⟩

/-! ### A word is rebuilt from what it decodes to (`30_encoding.md` R72, R74)

One lemma for each format: a row fixes the bits of its mask, and the fields it reads are the other ones. -/

/-- A word that matches the row is the word of the instruction the row makes of it. -/
def RowKeepsWord (r : OpRow) : Prop := ∀ w : Word, w &&& r.mask = r.pattern → encode (r.build w) = w

theorem RowKeepsWord.fixed {p : Word} {i : Instr} (he : encode i = p) : RowKeepsWord ⟨0xFFFF#16, p, fun _ => i⟩ :=
  fun _ h => he.trans (mask_FFFF_iff.1 h).symm

theorem RowKeepsWord.address {p : Word} {build : BitVec 12 → Instr}
    (he : ∀ nnn, encode (build nnn) = p.extractLsb' 12 4 ++ nnn) :
    RowKeepsWord ⟨0xF000#16, p, fun w => build (fieldNNN w)⟩ := fun w (h : w &&& 0xF000#16 = p) => by
  rw [he, ← extract_of_mask h 12 4 (by decide), word_eq_address]

theorem RowKeepsWord.immediate {p : Word} {build : Reg → Byte → Instr}
    (he : ∀ x nn, encode (build x nn) = p.extractLsb' 12 4 ++ nibble x ++ nn) :
    RowKeepsWord ⟨0xF000#16, p, fun w => build (fieldX w) (fieldNN w)⟩ := fun w (h : w &&& 0xF000#16 = p) => by
  rw [he, ← extract_of_mask h 12 4 (by decide), word_eq_immediate]

theorem RowKeepsWord.registers {p : Word} {build : Reg → Reg → Instr}
    (he : ∀ x y, encode (build x y) = p.extractLsb' 12 4 ++ nibble x ++ nibble y ++ p.extractLsb' 0 4) :
    RowKeepsWord ⟨0xF00F#16, p, fun w => build (fieldX w) (fieldY w)⟩ := fun w (h : w &&& 0xF00F#16 = p) => by
  rw [he, ← extract_of_mask h 12 4 (by decide), ← extract_of_mask h 0 4 (by decide), word_eq_nibbles]

theorem RowKeepsWord.sprite {p : Word} {build : Reg → Reg → Nat → Instr}
    (he : ∀ x y n, encode (build x y n) = p.extractLsb' 12 4 ++ nibble x ++ nibble y ++ BitVec.ofNat 4 n) :
    RowKeepsWord ⟨0xF000#16, p, fun w => build (fieldX w) (fieldY w) (fieldN w)⟩ :=
  fun w (h : w &&& 0xF000#16 = p) => by
  rw [he, ← extract_of_mask h 12 4 (by decide), fieldN, BitVec.ofNat_toNat, BitVec.setWidth_eq, word_eq_nibbles]

theorem RowKeepsWord.register {p : Word} {build : Reg → Instr}
    (he : ∀ x, encode (build x) = p.extractLsb' 12 4 ++ nibble x ++ p.extractLsb' 0 8) :
    RowKeepsWord ⟨0xF0FF#16, p, fun w => build (fieldX w)⟩ := fun w (h : w &&& 0xF0FF#16 = p) => by
  rw [he, ← extract_of_mask h 12 4 (by decide), ← extract_of_mask h 0 8 (by decide)]
  exact word_eq_immediate w

theorem rows0to7_keepWord : ∀ r ∈ opcodeRows0to7, RowKeepsWord r := by
  simp only [opcodeRows0to7, List.forall_mem_cons]
  exact ⟨.fixed rfl, .fixed rfl, .address fun _ => rfl, .address fun _ => rfl, .immediate fun _ _ => rfl,
    .immediate fun _ _ => rfl, .registers fun _ _ => rfl, .immediate fun _ _ => rfl, .immediate fun _ _ => rfl,
    List.forall_mem_nil _⟩

theorem rows8_keepWord : ∀ r ∈ opcodeRows8, RowKeepsWord r := by
  simp only [opcodeRows8, List.forall_mem_cons]
  exact ⟨.registers fun _ _ => rfl, .registers fun _ _ => rfl, .registers fun _ _ => rfl, .registers fun _ _ => rfl,
    .registers fun _ _ => rfl, .registers fun _ _ => rfl, .registers fun _ _ => rfl, .registers fun _ _ => rfl,
    .registers fun _ _ => rfl, List.forall_mem_nil _⟩

theorem rows9toD_keepWord : ∀ r ∈ opcodeRows9toD, RowKeepsWord r := by
  simp only [opcodeRows9toD, List.forall_mem_cons]
  exact ⟨.registers fun _ _ => rfl, .address fun _ => rfl, .address fun _ => rfl, .immediate fun _ _ => rfl,
    .sprite fun _ _ _ => rfl, List.forall_mem_nil _⟩

theorem rowsEF_keepWord : ∀ r ∈ opcodeRowsEF, RowKeepsWord r := by
  simp only [opcodeRowsEF, List.forall_mem_cons]
  exact ⟨.register fun _ => rfl, .register fun _ => rfl, .register fun _ => rfl, .register fun _ => rfl,
    .register fun _ => rfl, .register fun _ => rfl, .register fun _ => rfl, .register fun _ => rfl,
    .register fun _ => rfl, .register fun _ => rfl, .register fun _ => rfl, List.forall_mem_nil _⟩

theorem rows_keepWord : ∀ r ∈ opcodeRows, RowKeepsWord r := by
  simp only [opcodeRows, List.forall_mem_append]
  exact ⟨⟨⟨rows0to7_keepWord, rows8_keepWord⟩, rows9toD_keepWord⟩, rowsEF_keepWord⟩

/-- Settles O3: the word decodes by a row it matches, and each row keeps the word. -/
theorem encodeRebuildsDecodedWord : Obligations.EncodeRebuildsDecodedWord := by
  intro w i h
  obtain ⟨r, hr, hw, rfl⟩ := row_of_decodeWord h
  exact ⟨Machine.decodeWord_wellFormed h, rows_keepWord r hr w hw⟩

/-! ### The words that match no row (`30_encoding.md` R77)

Each list of rows as arithmetic on the family `w / 4096` and the low nibble or byte. -/

/-- The word matches none of the rows. -/
def NoRow (l : List OpRow) (w : Word) : Prop := ∀ r ∈ l, w &&& r.mask ≠ r.pattern

theorem noRow_opcodeRows_iff {w : Word} : NoRow opcodeRows w ↔
    NoRow opcodeRows0to7 w ∧ NoRow opcodeRows8 w ∧ NoRow opcodeRows9toD w ∧ NoRow opcodeRowsEF w := by
  simp only [NoRow, opcodeRows, List.forall_mem_append, and_assoc]

/-- `mask_F000_iff` with the pattern's own digit. -/
theorem mask_F000_eq_iff {w p : Word} (hp : p.toNat = p.toNat / 4096 * 4096) :
    w &&& 0xF000#16 = p ↔ w.toNat / 4096 = p.toNat / 4096 := mask_F000_iff hp

/-- `mask_F00F_iff` with the pattern's own digits. -/
theorem mask_F00F_eq_iff {w p : Word} (hp : p.toNat = p.toNat / 4096 * 4096 + p.toNat % 16) :
    w &&& 0xF00F#16 = p ↔ w.toNat / 4096 = p.toNat / 4096 ∧ w.toNat % 16 = p.toNat % 16 :=
  mask_F00F_iff hp (Nat.mod_lt _ (by decide))

/-- `mask_F0FF_iff` with the pattern's own digits. -/
theorem mask_F0FF_eq_iff {w p : Word} (hp : p.toNat = p.toNat / 4096 * 4096 + p.toNat % 256) :
    w &&& 0xF0FF#16 = p ↔ w.toNat / 4096 = p.toNat / 4096 ∧ w.toNat % 256 = p.toNat % 256 :=
  mask_F0FF_iff hp (Nat.mod_lt _ (by decide))

/-- Only in family 0 can a word be one of the two legal words there. -/
theorem ne_family0_words_iff {w : Word} :
    (w ≠ 0x00E0 ∧ w ≠ 0x00EE) ↔ (w.toNat / 0x1000 = 0 → w ≠ 0x00E0 ∧ w ≠ 0x00EE) := by
  refine ⟨fun h _ => h, fun h => ⟨?_, ?_⟩⟩
  · rintro rfl
    exact (h rfl).1 rfl
  · rintro rfl
    exact (h rfl).2 rfl

theorem noRow_0to7_iff {w : Word} : NoRow opcodeRows0to7 w ↔
    (w.toNat / 0x1000 = 0 → w ≠ 0x00E0 ∧ w ≠ 0x00EE) ∧ w.toNat / 0x1000 ∉ [1, 2, 3, 4] ∧
    (w.toNat / 0x1000 = 5 → w.toNat % 16 ≠ 0) ∧ w.toNat / 0x1000 ∉ [6, 7] := by
  rw [← ne_family0_words_iff]
  simp (disch := decide) [NoRow, opcodeRows0to7, mask_FFFF_iff, mask_F000_eq_iff, mask_F00F_eq_iff, and_assoc]

theorem noRow_8_iff {w : Word} : NoRow opcodeRows8 w ↔
    (w.toNat / 0x1000 = 8 → w.toNat % 16 ∉ [0, 1, 2, 3, 4, 5, 6, 7, 14]) := by
  simp (disch := decide) [NoRow, opcodeRows8, mask_F00F_eq_iff, imp_and]

theorem noRow_9toD_iff {w : Word} : NoRow opcodeRows9toD w ↔
    (w.toNat / 0x1000 = 9 → w.toNat % 16 ≠ 0) ∧ w.toNat / 0x1000 ∉ [10, 11, 12, 13] := by
  simp (disch := decide) [NoRow, opcodeRows9toD, mask_F000_eq_iff, mask_F00F_eq_iff]

theorem noRow_EF_iff {w : Word} : NoRow opcodeRowsEF w ↔
    (w.toNat / 0x1000 = 14 → w.toNat % 256 ∉ [0x9E, 0xA1]) ∧
    (w.toNat / 0x1000 = 15 → w.toNat % 256 ∉ [0x07, 0x0A, 0x15, 0x18, 0x1E, 0x29, 0x33, 0x55, 0x65]) := by
  simp (disch := decide) [NoRow, opcodeRowsEF, mask_F0FF_eq_iff, imp_and, and_assoc]

/-- Settles O4: a word is illegal when it matches no row, and only rows of its own family can match. -/
theorem illegalWordsAreTheListedOnes : Obligations.IllegalWordsAreTheListedOnes := by
  intro w
  have illegal : decodeWord w = .error (.illegal w) ↔ NoRow opcodeRows w := decodeWord_error_iff
  have family0 : w.toNat < 0x1000 ↔ w.toNat / 0x1000 = 0 := by omega
  have nibble8 : w.toNat % 16 ∈ [8, 9, 10, 11, 12, 13, 15] ↔ w.toNat % 16 ∉ [0, 1, 2, 3, 4, 5, 6, 7, 14] := by
    simp only [List.mem_cons, List.not_mem_nil, or_false]
    omega
  have hfamily : w.toNat / 0x1000 < 16 := by have := w.isLt; omega
  rw [illegal, noRow_opcodeRows_iff, noRow_0to7_iff, noRow_8_iff, noRow_9toD_iff, noRow_EF_iff, family0, nibble8]
  generalize w.toNat / 0x1000 = family at hfamily ⊢
  interval_cases family <;> simp

/-! ### The worked words (`30_encoding.md` R81) -/

/-- Settles O1: the decoder run on each of the eleven words. -/
theorem workedWordsDecode : Obligations.WorkedWordsDecode := by
  refine ⟨?_, ?_, ?_, ?_, ?_, ?_, ?_, ?_, ?_, ?_, ?_⟩ <;> decide

end Sys2Proof.Laws

/-! PROOFS of the family `40_step_cycle.md`: what a step does, phase by phase, and which faults it can meet. -/

namespace Sys2Proof.Machine

/-! ### Each instruction completes or meets a fault of its own (`40_step_cycle.md` R90, `60_exceptions.md` R208) -/

/-- The fault of the non-default `KEYSEL` (`92_eei_decisions.md` D11, log 4): a key skip on a register value above 15. -/
def KeyFault (i : Instr) (s : State) (f : Fault) : Prop :=
  s.cfg.keySelect = .faultAbove15 ∧
    ∃ x, (i = .skp x ∨ i = .sknp x) ∧ 15 < (s.reg x).toNat ∧ f = .keyCode (s.reg x) s.instrAddr

/-- The ways an instruction ends: it completes, or it stops with its own fault. -/
def Ends (i : Instr) (s : State) (o : Host.Outcome State Fault Refusal) : Prop :=
  (∃ t, o = .next t) ∨ ∃ f, o = .fault f ∧ (OwnFault i s f ∨ KeyFault i s f)

/-- Where a block access of `n` bytes leaves memory, it has a first offset outside, which is the address reported. -/
theorem exists_firstOutside_addr {s : State} {n : Nat} (hn : 0 < n) (h : s.cfg.memSize < effectiveAddr s 0 + n)
    (kind : AccessKind) : ∃ k, FirstOutside s n k ∧
      Fault.outOfBounds (max (effectiveAddr s 0) s.cfg.memSize) kind = .outOfBounds (effectiveAddr s k) kind := by
  obtain ⟨k, hk⟩ := exists_firstOutside hn h
  exact ⟨k, hk, by rw [hk.addr.1]⟩

theorem call_ends (nnn : BitVec 12) (s : State) : Ends (.call nnn) s (execCall nnn s) := by
  rcases execCall_cases nnn s with ⟨_, e⟩ | ⟨h, e⟩
  · exact .inl ⟨_, e⟩
  · exact .inr ⟨_, e, .inl (.inl ⟨nnn, rfl, h, rfl⟩)⟩

theorem ret_ends (s : State) : Ends .ret s (execRet s) := by
  rcases execRet_cases s with ⟨_, e⟩ | ⟨h, e⟩
  · exact .inl ⟨_, e⟩
  · exact .inr ⟨_, e, .inl (.inr (.inl ⟨rfl, h, rfl⟩))⟩

theorem drw_ends (x y : Reg) (n : Nat) (s : State) : Ends (.drw x y n) s (execDrw x y n s) := by
  rcases execDrw_cases x y n s with ⟨_, e⟩ | ⟨⟨hn, h⟩, e⟩
  · exact .inl ⟨_, e _ rfl⟩
  · obtain ⟨k, hk, ha⟩ := exists_firstOutside_addr hn h .read
    exact .inr ⟨_, e, .inl (.inr (.inr (.inl ⟨x, y, n, k, rfl, hk, ha⟩)))⟩

theorem bcd_ends (x : Reg) (s : State) : Ends (.bcd x) s (execBcd x s) := by
  rcases execBcd_cases x s with ⟨_, e⟩ | ⟨h, e⟩
  · exact .inl ⟨_, e⟩
  · obtain ⟨k, hk, ha⟩ := exists_firstOutside_addr (Nat.succ_pos 2) h .write
    exact .inr ⟨_, e, .inl (.inr (.inr (.inr (.inl ⟨x, k, rfl, hk, ha⟩))))⟩

theorem stm_ends (x : Reg) (s : State) : Ends (.stm x) s (execStm x s) := by
  rcases execStm_cases x s with ⟨_, e⟩ | ⟨h, e⟩
  · exact .inl ⟨_, e⟩
  · obtain ⟨k, hk, ha⟩ := exists_firstOutside_addr x.val.succ_pos h .write
    exact .inr ⟨_, e, .inl (.inr (.inr (.inr (.inr (.inl ⟨x, k, rfl, hk, ha⟩)))))⟩

theorem ldm_ends (x : Reg) (s : State) : Ends (.ldm x) s (execLdm x s) := by
  rcases execLdm_cases x s with ⟨_, e⟩ | ⟨h, e⟩
  · exact .inl ⟨_, e⟩
  · obtain ⟨k, hk, ha⟩ := exists_firstOutside_addr x.val.succ_pos h .read
    exact .inr ⟨_, e, .inl (.inr (.inr (.inr (.inr (.inr ⟨x, k, rfl, hk, ha⟩)))))⟩

theorem skp_ends (x : Reg) (s : State) : Ends (.skp x) s (execSkp x s) := by
  rcases execSkp_cases x s with ⟨_, e⟩ | ⟨hc, hv, e⟩
  · exact .inl ⟨_, e⟩
  · exact .inr ⟨_, e, .inr ⟨hc, x, .inl rfl, hv, rfl⟩⟩

theorem sknp_ends (x : Reg) (s : State) : Ends (.sknp x) s (execSknp x s) := by
  rcases execSknp_cases x s with ⟨_, e⟩ | ⟨hc, hv, e⟩
  · exact .inl ⟨_, e⟩
  · exact .inr ⟨_, e, .inr ⟨hc, x, .inr rfl, hv, rfl⟩⟩

/-- Eight instructions can stop; each of the others is one update of the state. -/
theorem exec_ends (i : Instr) (s : State) : Ends i s (exec i s) := by
  cases i with
  | call nnn => exact call_ends nnn s
  | ret => exact ret_ends s
  | drw x y n => exact drw_ends x y n s
  | bcd x => exact bcd_ends x s
  | stm x => exact stm_ends x s
  | ldm x => exact ldm_ends x s
  | skp x => exact skp_ends x s
  | sknp x => exact sknp_ends x s
  | _ => exact .inl ⟨_, rfl⟩

/-- What an instruction that faults has met. -/
theorem exec_fault {i : Instr} {s : State} {f : Fault} (h : exec i s = .fault f) : OwnFault i s f ∨ KeyFault i s f := by
  obtain ⟨t, e⟩ | ⟨g, e, hg⟩ := exec_ends i s
  · cases e.symm.trans h
  · cases e.symm.trans h
    exact hg

theorem exec_not_refused (i : Instr) (s : State) (r : Refusal) : exec i s ≠ .refused r := by
  intro h
  obtain ⟨t, e⟩ | ⟨g, e, -⟩ := exec_ends i s
  · cases e.symm.trans h
  · cases e.symm.trans h

/-- No instruction fetches. -/
theorem exec_ne_fetch_fault (i : Instr) (s : State) (a : Nat) : exec i s ≠ .fault (.outOfBounds a .fetch) := by
  intro h
  rcases exec_fault h with hown | hkey
  · simp [OwnFault] at hown
  · simp [KeyFault] at hkey

/-! ### A step from the fetch to the end (`40_step_cycle.md` R91 to R97) -/

theorem afterExec_eq_fault {o : Host.Outcome State Fault Refusal} {f : Fault} : afterExec o = .fault f ↔ o = .fault f := by
  cases o <;> simp [afterExec]

theorem afterExec_eq_refused {o : Host.Outcome State Fault Refusal} {r : Refusal} :
    afterExec o = .refused r ↔ o = .refused r := by
  cases o <;> simp [afterExec]

/-- A fetched word that decodes is its instruction, run on the advanced state. -/
theorem execWord_of_decode {w : Word} {i : Instr} (h : decodeWord w = .ok i) (s : State) :
    execWord w s = exec i s.advance := by
  rw [execWord, h]

theorem step_of_decode {s : State} {i : Instr} (hf : s.fault = none) (hw : s.wait = .running)
    (hpc : s.pc.toNat + 1 < s.cfg.memSize) (hd : decodeWord (fetched s) = .ok i) :
    step s = afterExec (exec i s.advance) :=
  (step_running hf hw hpc).trans (congrArg afterExec (execWord_of_decode hd s))

/-- A wait step with no key pressed. -/
theorem waitStep_idle {s : State} (h : s.lowestPressed = none) (r : Reg) : waitStep r s = .next (idle s) := by
  rw [waitStep, h]

/-- A wait step with a key pressed. -/
theorem waitStep_resume {s : State} {k : Reg} (h : s.lowestPressed = some k) (r : Reg) :
    waitStep r s = .next (resume r k s) := by
  rw [waitStep, h]

/-- A wait step always completes. -/
theorem waitStep_completes (r : Reg) (s : State) : ∃ t, waitStep r s = .next t := by
  cases h : s.lowestPressed with
  | none => exact ⟨_, waitStep_idle h r⟩
  | some k => exact ⟨_, waitStep_resume h r⟩

/-- Settles O12: past the fetch, an illegal word and an instruction's own fault are no fetch faults. -/
theorem fetchFaultsExactlyOutsideMemory : Obligations.FetchFaultsExactlyOutsideMemory := by
  intro s hf hw
  refine ⟨step_running hf hw, fun h => ?_, step_fetch_fault hf hw⟩
  by_contra hpc
  have hrun := step_running hf hw (Nat.not_le.1 hpc)
  rw [h] at hrun
  have hword := afterExec_eq_fault.1 hrun.symm
  cases hd : decodeWord (s.peek s.pc.toNat ++ s.peek (s.pc.toNat + 1)) with
  | ok i => exact exec_ne_fetch_fault i s.advance _ ((execWord_of_decode hd s).symm.trans hword)
  | error e => rw [execWord, hd] at hword; cases hword

/-- Settles O19: a step is a report, a wait step, a fetch fault, an illegal word or one instruction, and none is refused. -/
theorem nothingIsRefused : Obligations.NothingIsRefused := by
  refine ⟨exec_not_refused, fun s r h => ?_⟩
  obtain ⟨f, -, e⟩ | ⟨-, q, -, e⟩ | ⟨-, -, -, e⟩ | ⟨-, -, -, w, -, -, e⟩ | ⟨-, -, -, i, -, e⟩ := step_kinds s
  · cases e.symm.trans h
  · obtain ⟨t, ht⟩ := waitStep_completes q s
    cases (e.trans ht).symm.trans h
  · cases e.symm.trans h
  · cases e.symm.trans h
  · exact exec_not_refused i s.advance r (afterExec_eq_refused.1 (e.symm.trans h))

/-- Settles O11: the step is `afterExec` of the instruction, and the advance writes `pc` alone. -/
theorem stepRunsDecodedInstruction : Obligations.StepRunsDecodedInstruction := by
  intro s i hf hw hpc hd
  have hstep := step_of_decode hf hw hpc hd
  exact ⟨decodeWord_wellFormed hd, s.advance_pc, setPc_frame s _, fun t ht => by rw [hstep, ht, afterExec],
    fun f he => by rw [hstep, he, afterExec]⟩

/-! ### The timer phase and the key wait (`40_step_cycle.md` R91, R92, R96, R97) -/

theorem endStep_dt (s : State) : (endStep s).dt.toNat = s.dt.toNat - 1 := countDown_toNat s.dt

theorem endStep_st (s : State) : (endStep s).st.toNat = s.st.toNat - 1 := countDown_toNat s.st

theorem endStep_beep (s : State) : (endStep s).beep = true ↔ s.st.toNat = 1 := eq_one_iff s.st

/-- Settles O14: each timer is counted down by `countDown`. -/
theorem endOfStepCountsTimersDown : Obligations.EndOfStepCountsTimersDown := fun s =>
  ⟨endStep_dt s, endStep_st s, endStep_beep s, endStep_frame s⟩

theorem Field.Same.trans {s t u : State} {f : Field} (h : Field.Same s t f) (h' : Field.Same t u f) : Field.Same s u f := by
  cases f <;> exact Eq.trans h' h

/-- Two updates in a row write what either writes. -/
theorem OnlyWrites.trans {p q : Field → Prop} {s t u : State} (h : OnlyWrites p s t) (h' : OnlyWrites q t u) :
    OnlyWrites (fun f => p f ∨ q f) s u := fun f hf =>
  (h f fun hp => hf (.inl hp)).trans (h' f fun hq => hf (.inr hq))

theorem resume_frame (r k : Reg) (s : State) :
    OnlyWrites (among [.v r, .wait, .delay, .sound, .beep, .inputs, .tick]) s (resume r k s) := by
  have h := ((setReg_frame s r (BitVec.ofNat 8 k.val)).trans (setWait_frame _ .running)).trans (endStep_frame _)
  exact h.mono fun f hf => by simpa [among, or_assoc] using hf

/-- An idle step under the default `WAIT_TICKS_TIMERS` freezes the timers. -/
theorem idle_frozen_frame {s : State} (h : s.cfg.waitTicksTimers = false) :
    OnlyWrites (among [.beep, .inputs, .tick]) s (idle s) := by
  rw [idle_frozen h]
  intro f hf
  cases f <;> simp_all [among, Field.Same, State.reg, State.peek]

/-- Settles O15: the wait step is `idle` where no key is pressed, and `resume` with the lowest key where one is. -/
theorem keyWaitStepIdlesOrResumes : Obligations.KeyWaitStepIdlesOrResumes := by
  intro s r hf hw
  have hstep := step_awaiting hf hw
  have hidle (hk : ∀ k, s.keyPressed k = false) : step s = .next (idle s) :=
    hstep.trans (waitStep_idle (lowestPressed_none.2 hk) r)
  refine ⟨fun hk hc => ⟨idle s, hidle hk, by rw [idle_frozen hc], idle_frozen_frame hc⟩, fun hk hc => ?_,
    fun k hk hlow => ?_⟩
  · rw [hidle hk, idle_ticking hc]
  · exact ⟨resume r k s, hstep.trans (waitStep_resume (lowestPressed_some hk hlow) r), resume_reg r k s, rfl,
      endStep_dt _, endStep_st _, endStep_beep _, resume_frame r k s⟩

/-! ### The faulted machine (`40_step_cycle.md` R98, R99) -/

theorem hostTick_faulted {s : State} {f : Fault} (hf : s.fault = some f) : hostTick s = (s, some f) := by
  rw [hostTick, hf]

theorem hostTick_of_step_fault {s : State} {f : Fault} (hf : s.fault = none) (h : step s = .fault f) :
    hostTick s = (recordFault f s, some f) := by
  rw [hostTick, hf, h]

/-- Settles O17: a healthy machine that faults is left as `recordFault`, and a faulted one as it was. -/
theorem faultedMachineStaysFaulted : Obligations.FaultedMachineStaysFaulted := by
  intro s f
  refine ⟨fun hf => ⟨step_faulted hf, hostTick_faulted hf⟩, fun h => ?_⟩
  cases hf : s.fault with
  | none =>
    rw [hostTick_of_step_fault hf h]
    exact ⟨rfl, rfl, step_faulted rfl, fun _ => rfl⟩
  | some g =>
    cases (step_faulted hf).symm.trans h
    rw [hostTick_faulted hf]
    exact ⟨rfl, hf, h, fun hn => by cases hn⟩

end Sys2Proof.Machine

/-! PROOFS of the family `41_flow.md`: the jumps, the call, the return and the skips, and the invariant every step keeps. -/

namespace Sys2Proof.Machine

/-! ### Target addresses (`30_encoding.md` R73, `41_flow.md` R110, R114) -/

theorem extendAddr_toNat (nnn : BitVec 12) : (extendAddr nnn).toNat = nnn.toNat :=
  BitVec.toNat_setWidth_of_le (by decide)

theorem offsetTarget_toNat (nnn : BitVec 12) (s : State) :
    (offsetTarget nnn s).toNat = (nnn.toNat + (s.reg 0).toNat) % 65536 := BitVec.toNat_ofNat ..

/-- Stepping over two bytes adds at most 2, the wrap at 65536 included. -/
theorem add_two_toNat_le (v : Word) : (v + 2).toNat ≤ v.toNat + 2 := by
  rw [BitVec.toNat_add]
  exact Nat.mod_le ..

/-! ### The jumps and the skips (`41_flow.md` R111, R114 to R118) -/

/-- Settles O30: the jump is one write of `pc`. -/
theorem jpWritesTheTarget : Obligations.JpWritesTheTarget := by
  intro nnn s
  exact ⟨Laws.RoundTrip.jp nnn rfl, _, rfl, extendAddr_toNat nnn, setPc_frame s _⟩

/-- Settles O34: the jump is one write of `pc`, to `offsetTarget`. -/
theorem jpv0AddsRegisterZero : Obligations.Jpv0AddsRegisterZero := by
  intro nnn s
  exact ⟨Laws.RoundTrip.jpv0 nnn rfl, _, rfl, offsetTarget_toNat nnn s, setPc_frame s _⟩

/-- Settles O35: both skips are `skipIf`, on the comparison and on its negation. -/
theorem immediateSkipsCompareARegister : Obligations.ImmediateSkipsCompareARegister := by
  intro x nn s
  exact ⟨Laws.RoundTrip.se x nn rfl, Laws.RoundTrip.sne x nn rfl,
    ⟨_, rfl, by simp, setPc_frame s _⟩, ⟨_, rfl, by simp, setPc_frame s _⟩⟩

/-- Settles O36: both skips are `skipIf`, on the comparison and on its negation. -/
theorem registerSkipsCompareTwoRegisters : Obligations.RegisterSkipsCompareTwoRegisters := by
  intro x y s
  exact ⟨Laws.RoundTrip.ser x y rfl, Laws.RoundTrip.sner x y rfl,
    ⟨_, rfl, by simp, setPc_frame s _⟩, ⟨_, rfl, by simp, setPc_frame s _⟩⟩

/-! ### The call and the return (`41_flow.md` R112, R113) -/

/-- A call with room stores the advanced `pc` in the next slot, counts it and jumps. -/
theorem exec_call_next (nnn : BitVec 12) {s : State} (h : s.sp.val < 16) :
    exec (.call nnn) s = .next { s with
      stack := s.stack.set s.sp.val s.pc h, sp := ⟨s.sp.val + 1, Nat.succ_lt_succ h⟩, pc := extendAddr nnn } := by
  rw [exec, execCall, State.push_some h]; rfl

theorem exec_call_overflow (nnn : BitVec 12) {s : State} (h : s.sp = 16) :
    exec (.call nnn) s = .fault (.stackOverflow s.instrAddr) := by
  rw [exec, execCall, State.push_none h]; rfl

/-- A return with an address held takes `pc` from the newest slot and uncounts it. -/
theorem exec_ret_next {s : State} (h : 0 < s.sp.val) :
    exec .ret s = .next { s with sp := ⟨s.sp.val - 1, by omega⟩, pc := s.stack[s.sp.val - 1]'(by omega) } := by
  rw [exec, execRet, State.pop_some h]; rfl

theorem exec_ret_underflow {s : State} (h : s.sp = 0) : exec .ret s = .fault (.stackUnderflow s.instrAddr) := by
  rw [exec, execRet, State.pop_none h]; rfl

/-- Settles O31: with room the call writes the next slot, `sp` and `pc`; without, it stops before any write. -/
theorem callPushesTheReturnAddress : Obligations.CallPushesTheReturnAddress := by
  intro nnn s
  refine ⟨Laws.RoundTrip.call nnn rfl, fun h => ?_, exec_call_overflow nnn⟩
  refine ⟨_, exec_call_next nnn h, extendAddr_toNat nnn, rfl, fun k hk => by simp [hk], fun f hf => ?_⟩
  cases f with
  | slot j =>
    have hj : s.sp.val ≠ j.val := fun e => hf (.inr (.inr ⟨j, e.symm, rfl⟩))
    simp [Field.Same, hj]
  | pc => exact absurd (.inl rfl) hf
  | sp => exact absurd (.inr (.inl rfl)) hf
  | _ => rfl

/-- Settles O32: with an address held the return writes `sp` and `pc`; with none it stops before any write. -/
theorem retPopsTheReturnAddress : Obligations.RetPopsTheReturnAddress := by
  intro s
  refine ⟨Laws.RoundTrip.ret rfl, fun h => ?_, exec_ret_underflow⟩
  refine ⟨_, exec_ret_next h, Nat.sub_add_cancel h, fun k hk => by simp [← hk], fun f hf => ?_⟩
  cases f with
  | pc => simp [among] at hf
  | sp => simp [among] at hf
  | _ => rfl

/-- Settles O33: the return reads the slot the call wrote. -/
theorem returnAfterCallComesBack : Obligations.ReturnAfterCallComesBack := by
  intro nnn s h
  refine ⟨_, exec_call_next nnn h, fun u hstack hsp => ?_⟩
  have hu : u.sp.val = s.sp.val + 1 := by rw [hsp]
  exact ⟨_, exec_ret_next (by omega), by simp [hu, hstack], Fin.ext (by simp [hu])⟩

/-! ### The invariant (`10_state.md` R26, `20_memory.md` R53, `41_flow.md` R113)

An instruction sees the advanced `pc`, which is at most `MEM_SIZE` because the fetch was inside memory. From there a call
pushes an address that may be held, and the furthest an instruction moves `pc` is a skip or the largest `JPV0`. -/

theorem advance_pc_toNat_le {s : State} (h : s.pc.toNat + 1 < s.cfg.memSize) : s.advance.pc.toNat ≤ s.cfg.memSize :=
  (add_two_toNat_le s.pc).trans (by omega)

/-- An address at most `MEM_SIZE` is within the bound of `PcBounded`. -/
theorem le_pcBound {a memSize : Nat} (h : a ≤ memSize) : a ≤ max 0x10FE (memSize + 2) := by omega

section
variable {i : Instr} {s t : State} (h : exec i s = .next t)
include h

/-- Only a store writes memory, and it writes inside. -/
theorem exec_memoryCanonical (hmem : MemoryCanonical s) : MemoryCanonical t := by
  cases exec_completes h with
  | store x l _ hl => exact State.pokeAll_wf hmem hl
  | _ => simpa [MemoryCanonical] using hmem

/-- A call holds the advanced `pc` besides the addresses held; every other instruction holds no more than before. -/
theorem exec_stackInMemory (hstack : StackInMemory s) (hpc : s.pc.toNat ≤ s.cfg.memSize) : StackInMemory t := by
  cases exec_completes h with
  | call nnn hsp =>
    intro k hk
    by_cases e : s.sp.val = k.val
    · simpa [e] using hpc
    · have hlt : k.val < s.sp.val := Nat.lt_of_le_of_ne (Nat.le_of_lt_succ hk) (Ne.symm e)
      simpa [e] using hstack k hlt
  | ret hsp => exact fun k hk => hstack k (Nat.lt_of_lt_of_le hk (Nat.sub_le ..))
  | _ => simpa [StackInMemory] using hstack

/-- The call and the jumps go to 12-bit targets (plus a byte), the return to a held address, a skip two bytes on. -/
theorem exec_pcBounded (hstack : StackInMemory s) (hpc : s.pc.toNat ≤ s.cfg.memSize) : PcBounded t := by
  have hs : PcBounded s := le_pcBound hpc
  cases exec_completes h with
  | call nnn =>
    simp only [PcBounded, extendAddr_toNat]
    omega
  | ret hsp =>
    have hslot := hstack ⟨s.sp.val - 1, by omega⟩ (Nat.sub_lt hsp Nat.one_pos)
    exact le_pcBound hslot
  | jump nnn hv =>
    rcases hv with ⟨-, rfl⟩ | ⟨-, rfl⟩
    · simp only [PcBounded, State.setPc_pc, extendAddr_toNat]
      omega
    · simp only [PcBounded, State.setPc_pc, offsetTarget_toNat]
      omega
  | skip c =>
    have hskip := add_two_toNat_le s.pc
    simp only [PcBounded, State.skipIf_pc, State.skipIf_cfg]
    split <;> omega
  | _ => simpa [PcBounded] using hs

/-- An instruction that sees `pc` at most `MEM_SIZE` keeps the invariant. -/
theorem exec_inv (hmem : MemoryCanonical s) (hstack : StackInMemory s) (hpc : s.pc.toNat ≤ s.cfg.memSize) : Inv t :=
  ⟨exec_memoryCanonical h hmem, exec_stackInMemory h hstack hpc, exec_pcBounded h hstack hpc⟩

end

theorem endStep_inv {s : State} (hs : Inv s) : Inv (endStep s) := ⟨hs.memory, hs.stack, hs.pc⟩

theorem resume_inv {s : State} (r k : Reg) (hs : Inv s) : Inv (resume r k s) := ⟨hs.memory, hs.stack, hs.pc⟩

theorem idle_inv {s : State} (hs : Inv s) : Inv (idle s) := by
  rw [idle_eq]
  exact ⟨hs.memory, hs.stack, hs.pc⟩

/-- Settles O26: a wait step writes nothing the invariant speaks of, and a running step fetched its word inside memory. -/
theorem stepKeepsTheInvariant : Obligations.StepKeepsTheInvariant := by
  intro s t hs h
  obtain ⟨-, ⟨r, -, -, rfl⟩ | ⟨r, k, -, -, rfl⟩ | ⟨i, u, -, hpc, -, hu, rfl⟩⟩ := step_cases h
  · exact idle_inv hs
  · exact resume_inv r k hs
  · exact endStep_inv (exec_inv hu hs.memory hs.stack (advance_pc_toNat_le hpc))

end Sys2Proof.Machine

/-! PROOFS of the family `42_alu.md`: what the load, arithmetic, logic, shift and random instructions leave. -/

namespace Sys2Proof.Machine

/-! ### The results and the flags as numbers (`42_alu.md` R130, R139 to R143) -/

theorem addBytes_toNat (a b : Byte) : (addBytes a b).toNat = (a.toNat + b.toNat) % 256 := BitVec.toNat_ofNat ..

theorem addBytes_eq (a b : Byte) : addBytes a b = BitVec.ofNat 8 ((a.toNat + b.toNat) % 256) := by
  rw [← addBytes_toNat, BitVec.ofNat_toNat, BitVec.setWidth_eq]

/-- The difference, with 256 added so that the subtraction of naturals loses nothing. -/
theorem subBytes_eq (a b : Byte) : subBytes a b = BitVec.ofNat 8 ((256 + a.toNat - b.toNat) % 256) := by
  apply BitVec.eq_of_toNat_eq
  simp only [subBytes, BitVec.toNat_ofInt, BitVec.toNat_ofNat]
  omega

theorem double_eq (v : Byte) : double v = BitVec.ofNat 8 (2 * v.toNat % 256) := by
  apply BitVec.eq_of_toNat_eq
  simp [double]

theorem flagByte_decide (p : Prop) [Decidable p] : flagByte (decide p) = if p then 1 else 0 := by simp [flagByte]

theorem flagByte_lowBit (v : Byte) : flagByte (lowBit v) = BitVec.ofNat 8 (v.toNat % 2) := by
  have hbit : lowBit v = decide (v.toNat % 2 = 1) := Nat.testBit_zero v.toNat
  rw [hbit, flagByte_decide]
  obtain h | h := Nat.mod_two_eq_zero_or_one v.toNat <;> simp [h]

theorem flagByte_highBit (v : Byte) : flagByte (highBit v) = BitVec.ofNat 8 (v.toNat / 128) := by
  have hbit : highBit v = decide (v.toNat / 128 % 2 = 1) := Nat.testBit_eq_decide_div_mod_eq
  rw [hbit, flagByte_decide]
  obtain h | h : v.toNat / 128 = 0 ∨ v.toNat / 128 = 1 := by omega
  · simp [h]
  · simp [h]

/-! ### The operands an instruction reads (`42_alu.md` R141, R143, R145) -/

/-- A shift reads the register that `SHIFT_SRC` names. -/
theorem shiftOperand_eq {x y : Reg} {s : State} {v : Byte} (hx : s.cfg.shiftSource = .vx → v = s.reg x)
    (hy : s.cfg.shiftSource = .vy → v = s.reg y) : shiftOperand x y s = v := by
  unfold shiftOperand
  cases hsrc : s.cfg.shiftSource with
  | vx => exact (hx hsrc).symm
  | vy => exact (hy hsrc).symm

theorem rand_of_cons {s : State} {i : StepInput} {rest : List StepInput} (h : s.inputs = i :: rest) : s.rand = i.random := by
  simp [State.rand, State.input, h]

theorem rand_of_nil {s : State} (h : s.inputs = []) : s.rand = Config.freeByte s.tick := by
  simp [State.rand, State.input, h]

/-! ### The instructions that write one register and no flag (`42_alu.md` R133 to R138, R144) -/

theorem State.setReg_reg_same (s : State) (x : Reg) (v : Byte) : (s.setReg x v).reg x = v := by simp

/-- Settles O37: the load is one write of `x[X]`. -/
theorem ldWritesTheImmediate : Obligations.LdWritesTheImmediate := by
  intro x nn s
  exact ⟨Laws.RoundTrip.ld x nn rfl, _, rfl, s.setReg_reg_same x nn, setReg_frame s x _⟩

/-- Settles O38: the addition is one write of `x[X]`, with `addBytes`. -/
theorem addImmediateWrapsWithoutFlag : Obligations.AddImmediateWrapsWithoutFlag := by
  intro x nn s
  refine ⟨Laws.RoundTrip.add x nn rfl, _, rfl, ?_, setReg_frame s x _⟩
  rw [State.setReg_reg_same, addBytes_toNat]

/-- Settles O39: the copy is one write of `x[X]`. -/
theorem movCopiesARegister : Obligations.MovCopiesARegister := by
  intro x y s
  exact ⟨Laws.RoundTrip.mov x y rfl, _, rfl, s.setReg_reg_same x _, setReg_frame s x _⟩

/-- Settles O40: each operation is one write of `x[X]`, with the machine word's operation, which works bit by bit. -/
theorem logicOperationsWorkBitwiseWithoutFlag : Obligations.LogicOperationsWorkBitwiseWithoutFlag := by
  intro x y s
  refine ⟨Laws.RoundTrip.or x y rfl, Laws.RoundTrip.and x y rfl, Laws.RoundTrip.xor x y rfl,
    ⟨_, rfl, setReg_frame s x _, fun b _ => ?_⟩, ⟨_, rfl, setReg_frame s x _, fun b _ => ?_⟩,
    ⟨_, rfl, setReg_frame s x _, fun b _ => ?_⟩⟩
  · rw [State.setReg_reg_same, BitVec.getLsbD_or]
  · rw [State.setReg_reg_same, BitVec.getLsbD_and]
  · rw [State.setReg_reg_same, BitVec.getLsbD_xor]

/-- Settles O45: the random byte is the one of the step's input. -/
theorem rndMasksTheRandomByte : Obligations.RndMasksTheRandomByte := by
  intro x nn s
  refine ⟨Laws.RoundTrip.rnd x nn rfl, _, rfl, setReg_frame s x _, fun i rest h => ?_, fun h => ?_⟩
  · rw [State.setReg_reg_same, rand_of_cons h]
  · rw [State.setReg_reg_same, rand_of_nil h]

/-! ### The instructions that write a result and a flag (`42_alu.md` R139 to R143) -/

/-- `writeFlagged_spec` with the result and the flag under other names. -/
theorem writeFlagged_resultAndFlag {v result flag : Byte} {b : Bool} (hv : v = result) (hb : flagByte b = flag)
    (r : Reg) (s : State) : ResultAndFlag r result flag s (writeFlagged r v b s) := by
  subst hv hb
  exact writeFlagged_spec r v b s

/-- Settles O41: the two writes of `addBytes` and the carry. -/
theorem addRegistersCarriesIntoFlag : Obligations.AddRegistersCarriesIntoFlag := by
  intro x y s
  exact ⟨Laws.RoundTrip.addr x y rfl, _, rfl, writeFlagged_resultAndFlag (addBytes_eq ..) (flagByte_decide _) x s⟩

/-- Settles O42: the two writes of `subBytes` and not-borrow. -/
theorem subtractSetsFlagWithoutBorrow : Obligations.SubtractSetsFlagWithoutBorrow := by
  intro x y s
  exact ⟨Laws.RoundTrip.sub x y rfl, _, rfl, writeFlagged_resultAndFlag (subBytes_eq ..) (flagByte_decide _) x s⟩

/-- Settles O43: `SUB` with its operands exchanged. -/
theorem reverseSubtractSetsFlagWithoutBorrow : Obligations.ReverseSubtractSetsFlagWithoutBorrow := by
  intro x y s
  exact ⟨Laws.RoundTrip.subn x y rfl, _, rfl, writeFlagged_resultAndFlag (subBytes_eq ..) (flagByte_decide _) x s⟩

/-- Settles O44: both shifts read the register that `SHIFT_SRC` names, and write the shifted value and the bit it lost. -/
theorem shiftsPutTheLostBitInFlag : Obligations.ShiftsPutTheLostBitInFlag := by
  intro x y s v hx hy
  obtain rfl : shiftOperand x y s = v := shiftOperand_eq hx hy
  exact ⟨Laws.RoundTrip.shr x y rfl, Laws.RoundTrip.shl x y rfl,
    ⟨_, rfl, writeFlagged_resultAndFlag rfl (flagByte_lowBit _) x s⟩,
    ⟨_, rfl, writeFlagged_resultAndFlag (double_eq _) (flagByte_highBit _) x s⟩⟩

end Sys2Proof.Machine

/-! PROOFS of the family `43_index_memory.md`: what the index-register instructions and the block stores and loads leave. -/

namespace Sys2Proof.Machine

/-! ### The index register (`43_index_memory.md` R151 to R153) -/

theorem indexPlus_toNat (v : Byte) (s : State) : (indexPlus v s).toNat = (s.index.toNat + v.toNat) % 65536 :=
  BitVec.toNat_ofNat ..

/-- The last glyph is at 75, so no address wraps. -/
theorem glyphAddr_toNat (d : Reg) : (glyphAddr d).toNat = 5 * d.val := by
  simp only [glyphAddr, fontBase, glyphStride, BitVec.toNat_ofNat]
  omega

/-- Settles O46: the load is one write of `I`. -/
theorem ldiWritesTheAddress : Obligations.LdiWritesTheAddress := by
  intro nnn s
  exact ⟨Laws.RoundTrip.ldi nnn rfl, _, rfl, extendAddr_toNat nnn, setIndex_frame s _⟩

/-- Settles O47: the addition is one write of `I`, with `indexPlus`. -/
theorem addiWrapsAtSixteenBits : Obligations.AddiWrapsAtSixteenBits := by
  intro x s
  exact ⟨Laws.RoundTrip.addi x rfl, _, rfl, indexPlus_toNat (s.reg x) s, setIndex_frame s _⟩

/-- Settles O48: the instruction is one write of `I`, with the glyph's address. -/
theorem fontPointsAtTheGlyph : Obligations.FontPointsAtTheGlyph := by
  intro x s
  exact ⟨Laws.RoundTrip.font x rfl, _, rfl, glyphAddr_toNat (lowNibble (s.reg x)), setIndex_frame s _⟩

/-! ### A block access completes or reports the first address outside (`43_index_memory.md` R150, `60_exceptions.md` R201) -/

/-- The outcome `o` of an instruction that accesses the `n` bytes from `I` upward: it completes with `t` where they are all
inside memory, and faults where they are not. -/
def BlockOutcome (s : State) (n : Nat) (kind : AccessKind) (t : State) (o : Host.Outcome State Fault Refusal) : Prop :=
  (effectiveAddr s 0 + n ≤ s.cfg.memSize ∧ o = .next t) ∨
  (s.cfg.memSize < effectiveAddr s 0 + n ∧ o = .fault (.outOfBounds (max (effectiveAddr s 0) s.cfg.memSize) kind))

section
variable {s t : State} {kind : AccessKind} {o : Host.Outcome State Fault Refusal}

/-- A block whose last offset is inside memory is inside memory. -/
theorem BlockOutcome.next {k : Nat} (h : BlockOutcome s (k + 1) kind t o) (hk : effectiveAddr s k < s.cfg.memSize) :
    o = .next t :=
  (h.resolve_right fun hout => Nat.not_le.2 hout.1 hk).2

/-- The address reported is that of the first offset outside memory. -/
theorem BlockOutcome.fault {n k : Nat} (h : BlockOutcome s n kind t o) (hk : FirstOutside s n k) :
    o = .fault (.outOfBounds (effectiveAddr s k) kind) := by
  obtain ⟨haddr, hout⟩ := hk.addr
  rw [haddr]
  exact (h.resolve_left fun hin => Nat.not_le.2 hout hin.1).2

end

theorem exec_bcd_outcome (x : Reg) (s : State) :
    BlockOutcome s 3 .write (s.pokeAll (effectiveAddr s 0) (decimalDigits (s.reg x))) (exec (.bcd x) s) :=
  execBcd_cases x s

theorem exec_stm_outcome (x : Reg) (s : State) :
    BlockOutcome s (x.val + 1) .write (s.pokeAll (effectiveAddr s 0) (s.regsUpTo x)) (exec (.stm x) s) :=
  execStm_cases x s

theorem exec_ldm_outcome (x : Reg) (s : State) :
    BlockOutcome s (x.val + 1) .read (s.loadRegs (bytesFrom s (effectiveAddr s 0) (x.val + 1))) (exec (.ldm x) s) :=
  execLdm_cases x s

/-! ### The bytes stored at `I` upward (`43_index_memory.md` R154, R155) -/

/-- Storing a block at `I` writes the bytes at the effective addresses of its offsets, and nothing else. -/
theorem pokeAll_effectiveAddr_frame (s : State) (l : List Byte) :
    OnlyWrites (fun f => ∃ k, k < l.length ∧ f = .byte (effectiveAddr s k)) s (s.pokeAll (effectiveAddr s 0) l) :=
  pokeAll_frame

/-- Byte `k` of a block stored at `I` is read at offset `k`. -/
theorem pokeAll_effectiveAddr_peek (s : State) {l : List Byte} {k : Nat} {v : Byte} (h : l[k]? = some v) :
    (s.pokeAll (effectiveAddr s 0) l).peek (effectiveAddr s k) = v := s.pokeAll_peek_add (effectiveAddr s 0) h

theorem State.regsUpTo_getElem? (s : State) {r k : Reg} (h : k ≤ r) : (s.regsUpTo r)[k.val]? = some (s.reg k) := by
  have hk : k.val < r.val + 1 := Nat.lt_succ_of_le h
  simp [State.regsUpTo, State.reg, hk]

/-- A number at most a byte's value fits a byte. -/
theorem toNat_ofNat_of_le {n : Nat} {v : Byte} (h : n ≤ v.toNat) : (BitVec.ofNat 8 n).toNat = n :=
  Nat.mod_eq_of_lt (h.trans_lt v.isLt)

/-- Settles O49: inside memory the three digits are stored, and each is at most the number it is a digit of. -/
theorem bcdStoresThreeDigits : Obligations.BcdStoresThreeDigits := by
  intro x s
  refine ⟨Laws.RoundTrip.bcd x rfl, fun h => ?_, fun k => (exec_bcd_outcome x s).fault⟩
  refine ⟨_, (exec_bcd_outcome x s).next h, ?hundreds, ?tens, ?units, pokeAll_effectiveAddr_frame s (decimalDigits (s.reg x))⟩
  case hundreds =>
    rw [pokeAll_effectiveAddr_peek s (k := 0) rfl, toNat_ofNat_of_le (Nat.div_le_self ..)]
  case tens =>
    rw [pokeAll_effectiveAddr_peek s (k := 1) rfl,
      toNat_ofNat_of_le ((Nat.mod_le ..).trans (Nat.div_le_self ..))]
  case units =>
    rw [pokeAll_effectiveAddr_peek s (k := 2) rfl, toNat_ofNat_of_le (Nat.mod_le ..)]

/-- Settles O50: inside memory the block of registers is stored, whose offsets are those up to `X`. -/
theorem stmStoresTheRegisterBlock : Obligations.StmStoresTheRegisterBlock := by
  intro x s
  refine ⟨Laws.RoundTrip.stm x rfl, fun h => ?_, fun k => (exec_stm_outcome x s).fault⟩
  refine ⟨_, (exec_stm_outcome x s).next h, fun k hk => pokeAll_effectiveAddr_peek s (s.regsUpTo_getElem? hk), ?_⟩
  have hframe := pokeAll_effectiveAddr_frame s (s.regsUpTo x)
  rw [s.regsUpTo_length] at hframe
  exact hframe.mono fun f ⟨k, hk, e⟩ => ⟨k, Nat.le_of_lt_succ hk, e⟩

/-! ### The registers loaded from `I` upward (`43_index_memory.md` R156) -/

/-- A block load writes the registers its list reaches, and nothing else. -/
theorem loadRegs_frame (s : State) (l : List Byte) :
    OnlyWrites (fun f => ∃ r : Reg, r.val < l.length ∧ f = .v r) s (s.loadRegs l) := by
  intro f hf
  cases f with
  | v r =>
    have hr : l.length ≤ r.val := Nat.not_lt.1 fun hr => hf ⟨r, hr, rfl⟩
    rw [Field.Same, State.loadRegs_reg, List.getD_eq_default _ _ hr]
  | _ => simp [Field.Same]

theorem bytesFrom_length (s : State) (a n : Nat) : (bytesFrom s a n).length = n := by simp [bytesFrom]

theorem bytesFrom_getD (s : State) (a : Nat) {n k : Nat} (h : k < n) (d : Byte) :
    (bytesFrom s a n).getD k d = s.peek (a + k) := by
  simp [bytesFrom, h]

/-- Settles O51: inside memory the block of registers up to `X` is loaded. -/
theorem ldmLoadsTheRegisterBlock : Obligations.LdmLoadsTheRegisterBlock := by
  intro x s
  refine ⟨Laws.RoundTrip.ldm x rfl, fun h => ?_, fun k => (exec_ldm_outcome x s).fault⟩
  refine ⟨_, (exec_ldm_outcome x s).next h, fun k hk => ?_, ?_⟩
  · rw [State.loadRegs_reg]
    exact bytesFrom_getD s _ (Nat.lt_succ_of_le hk) _
  · have hframe := loadRegs_frame s (bytesFrom s (effectiveAddr s 0) (x.val + 1))
    rw [bytesFrom_length] at hframe
    exact hframe.mono fun f ⟨k, hk, e⟩ => ⟨k, Nat.le_of_lt_succ hk, e⟩

end Sys2Proof.Machine

/-! PROOFS of the family `44_display.md`: what the clear and the draw leave on the screen, and drawing twice. -/

namespace Sys2Proof.Machine

/-! ### The clear (`44_display.md` R170) -/

/-- Settles O52: the clear installs the blank frame buffer and is nothing but that update. -/
theorem clsClearsEveryPixel : Obligations.ClsClearsEveryPixel := by
  intro s
  exact ⟨Laws.RoundTrip.cls rfl, _, rfl, FrameBuffer.pixel_blank, rfl, setFrame_frame s FrameBuffer.blank⟩

/-! ### The state a draw leaves (`44_display.md` R171) -/

theorem flagByte_eq_one_iff (b : Bool) : flagByte b = 1 ↔ b = true := by cases b <;> decide

theorem flagByte_eq_zero_iff (b : Bool) : flagByte b = 0 ↔ ¬ b = true := by cases b <;> decide

/-- The pixel is covered by the sprite that `DRW Vx, Vy, n` draws from `s`. -/
def DrawCovers (x y : Reg) (n : Nat) (s : State) (a : Fin 64) (b : Fin 32) : Prop :=
  Covers (s.reg x).toNat (s.reg y).toNat (bytesFrom s s.index.toNat n) a b

/-- The frame buffer with that sprite drawn on it, and whether it collided. -/
def drawing (x y : Reg) (n : Nat) (s : State) : Canvas :=
  drawRows (s.reg x).toNat (s.reg y).toNat (bytesFrom s s.index.toNat n) (s.fb, false)

/-- The state with that drawing on the screen and its flag in `VF`. -/
def drawn (x y : Reg) (n : Nat) (s : State) : State :=
  (s.setFrame (drawing x y n s).1).setReg VF (flagByte (drawing x y n s).2)

section
variable {x y : Reg} {n : Nat} {s t : State}

theorem exec_drw_next (h : ∀ k, k < n → effectiveAddr s k < s.cfg.memSize) :
    exec (.drw x y n) s = .next (drawn x y n s) := by
  rcases execDrw_cases x y n s with ⟨-, e⟩ | ⟨⟨hn, hout⟩, -⟩
  · exact e _ rfl
  · obtain ⟨k, hk, hk', -⟩ := exists_firstOutside hn hout
    exact absurd (h k hk) (Nat.not_lt.2 hk')

theorem exec_drw_fault {k : Nat} (h : FirstOutside s n k) :
    exec (.drw x y n) s = .fault (.outOfBounds (effectiveAddr s k) .read) := by
  obtain ⟨haddr, hout⟩ := h.addr
  rcases execDrw_cases x y n s with ⟨hin, -⟩ | ⟨-, e⟩
  · have hn : 0 < n := Nat.zero_lt_of_lt h.1
    omega
  · rw [haddr]
    exact e

/-- A draw that completes leaves no other state. -/
theorem eq_drawn_of_exec (h : exec (.drw x y n) s = .next t) : t = drawn x y n s := by
  rcases execDrw_cases x y n s with ⟨-, e⟩ | ⟨-, e⟩
  · cases (e _ rfl).symm.trans h; rfl
  · cases e.symm.trans h

theorem drawn_frame :
    OnlyWrites (fun f => f = .v VF ∨ f = .drawPending ∨ ∃ a b, f = .pixel a b) s (drawn x y n s) :=
  ((setFrame_frame s _).trans (setReg_frame _ VF _)).mono fun f hf => by
    rcases hf with hf | hf
    · exact .inr hf
    · exact .inl (List.mem_singleton.1 hf)

/-- With its coordinates in registers other than `VF`, a draw leaves a state from which the same instruction draws the same
sprite at the same place: it writes neither the coordinates, nor `I`, nor memory. -/
theorem drawCovers_drawn (hx : x ≠ VF) (hy : y ≠ VF) (a : Fin 64) (b : Fin 32) :
    DrawCovers x y n (drawn x y n s) a b ↔ DrawCovers x y n s a b := by
  simp [DrawCovers, drawn, bytesFrom, hx, hy]

/-! ### The pixels and the flag of a draw (`44_display.md` R172 to R174) -/

variable (hn : n < 16)
include hn

/-- A sprite of fewer than sixteen rows is not taller than the screen, so no pixel is met twice. -/
theorem bytesFrom_length_le_rows : (bytesFrom s s.index.toNat n).length ≤ 32 := by
  rw [bytesFrom_length]; omega

theorem drawn_pixel_of_covers {a : Fin 64} {b : Fin 32} (h : DrawCovers x y n s a b) :
    FrameBuffer.pixel (drawn x y n s).fb a b = !FrameBuffer.pixel s.fb a b :=
  ((drawRows_spec _ _ _ (s.fb, false) (bytesFrom_length_le_rows hn)).1 a b).1 h

theorem drawn_pixel_of_not_covers {a : Fin 64} {b : Fin 32} (h : ¬ DrawCovers x y n s a b) :
    FrameBuffer.pixel (drawn x y n s).fb a b = FrameBuffer.pixel s.fb a b :=
  ((drawRows_spec _ _ _ (s.fb, false) (bytesFrom_length_le_rows hn)).1 a b).2 h

theorem drawing_collides_iff :
    (drawing x y n s).2 = true ↔ ∃ a b, DrawCovers x y n s a b ∧ FrameBuffer.pixel s.fb a b = true :=
  (drawRows_spec _ _ _ (s.fb, false) (bytesFrom_length_le_rows hn)).2.trans (by simp [DrawCovers])

theorem drawn_flag_eq_one_iff :
    (drawn x y n s).reg VF = 1 ↔ ∃ a b, DrawCovers x y n s a b ∧ FrameBuffer.pixel s.fb a b = true := by
  rw [drawn, State.setReg_reg_same, flagByte_eq_one_iff, drawing_collides_iff hn]

theorem drawn_flag_eq_zero_iff :
    (drawn x y n s).reg VF = 0 ↔ ¬ ∃ a b, DrawCovers x y n s a b ∧ FrameBuffer.pixel s.fb a b = true := by
  rw [drawn, State.setReg_reg_same, flagByte_eq_zero_iff, drawing_collides_iff hn]

/-! ### Drawing twice (`44_display.md` R175) -/

variable (hx : x ≠ VF) (hy : y ≠ VF)
include hx hy

/-- A covered pixel is toggled twice, and any other pixel never. -/
theorem drawn_drawn_pixel (a : Fin 64) (b : Fin 32) :
    FrameBuffer.pixel (drawn x y n (drawn x y n s)).fb a b = FrameBuffer.pixel s.fb a b := by
  by_cases hc : DrawCovers x y n s a b
  · rw [drawn_pixel_of_covers hn ((drawCovers_drawn hx hy a b).2 hc), drawn_pixel_of_covers hn hc, Bool.not_not]
  · rw [drawn_pixel_of_not_covers hn (mt (drawCovers_drawn hx hy a b).1 hc), drawn_pixel_of_not_covers hn hc]

/-- A covered pixel is lit for the second draw exactly if it was unlit before the first. -/
theorem drawn_covered_lit_iff (a : Fin 64) (b : Fin 32) :
    (DrawCovers x y n (drawn x y n s) a b ∧ FrameBuffer.pixel (drawn x y n s).fb a b = true) ↔
      (DrawCovers x y n s a b ∧ FrameBuffer.pixel s.fb a b = false) := by
  rw [drawCovers_drawn hx hy]
  refine and_congr_right fun hc => ?_
  rw [drawn_pixel_of_covers hn hc, Bool.not_eq_true']

end

/-- Settles O53: inside memory the draw leaves `drawn`, whose pixels, flag and frame are those stated. -/
theorem drwTogglesTheCoveredPixels : Obligations.DrwTogglesTheCoveredPixels := by
  intro x y n s hn
  refine ⟨Laws.RoundTrip.drw x y n (decide_eq_true hn), fun h => ?_, fun k => exec_drw_fault⟩
  exact ⟨drawn x y n s, exec_drw_next h, rfl, fun a b => drawn_pixel_of_covers hn, fun a b => drawn_pixel_of_not_covers hn,
    (drawn_flag_eq_one_iff hn).2, (drawn_flag_eq_zero_iff hn).2, drawn_frame⟩

/-- Settles O54: the second draw covers the pixels of the first, so it toggles them back, and those it finds lit are those
the first found unlit. -/
theorem drawingTwiceRestoresThePixels : Obligations.DrawingTwiceRestoresThePixels := by
  intro x y n s t u hn hx hy ht hu
  obtain rfl := eq_drawn_of_exec ht
  obtain rfl := eq_drawn_of_exec hu
  refine ⟨drawn_drawn_pixel hn hx hy, (drawn_flag_eq_one_iff hn).trans ?_⟩
  exact exists_congr fun a => exists_congr fun b => drawn_covered_lit_iff hn hx hy a b

end Sys2Proof.Machine

/-! PROOFS of the family `45_keypad_timers.md`: the key skips, the key wait and the timer instructions. -/

namespace Sys2Proof.Machine

/-! ### The key skips (`45_keypad_timers.md` R185 to R187) -/

theorem State.skipIf_not_pc (s : State) (c : Bool) : (s.skipIf (!c)).pc = if c then s.pc else s.pc + 2 := by
  cases c <;> rfl

section
variable {x : Reg} {s : State}

section
variable (h : s.cfg.keySelect = .lowNibble ∨ (s.reg x).toNat ≤ 15)
include h

/-- Where the register names a key, it is not one that `KEYSEL` rejects. -/
theorem keySelected_not_rejected (hc : s.cfg.keySelect = .faultAbove15) : ¬ 15 < (s.reg x).toNat :=
  Nat.not_lt.2 (h.resolve_left (by simp [hc]))

theorem exec_skp_next : exec (.skp x) s = .next (s.skipIf (s.keyPressed (lowNibble (s.reg x)))) :=
  ((execSkp_cases x s).resolve_right fun ⟨hc, hv, _⟩ => keySelected_not_rejected h hc hv).2

theorem exec_sknp_next : exec (.sknp x) s = .next (s.skipIf (!s.keyPressed (lowNibble (s.reg x)))) :=
  ((execSknp_cases x s).resolve_right fun ⟨hc, hv, _⟩ => keySelected_not_rejected h hc hv).2

end

section
variable (hc : s.cfg.keySelect = .faultAbove15) (hv : 15 < (s.reg x).toNat)
include hc hv

theorem exec_skp_keyCode : exec (.skp x) s = .fault (.keyCode (s.reg x) s.instrAddr) :=
  ((execSkp_cases x s).resolve_left fun h => keySelected_not_rejected h.1 hc hv).2.2

theorem exec_sknp_keyCode : exec (.sknp x) s = .fault (.keyCode (s.reg x) s.instrAddr) :=
  ((execSknp_cases x s).resolve_left fun h => keySelected_not_rejected h.1 hc hv).2.2

end

end

/-- Settles O55: both skips are `skipIf`, on the level of the key that the low nibble names and on its negation. -/
theorem keySkipsTestTheKeyLevel : Obligations.KeySkipsTestTheKeyLevel := by
  intro x s k hk
  obtain rfl : k = lowNibble (s.reg x) := Fin.ext hk
  refine ⟨Laws.RoundTrip.skp x rfl, Laws.RoundTrip.sknp x rfl, fun h => ?_,
    fun hc hv => ⟨exec_skp_keyCode hc hv, exec_sknp_keyCode hc hv⟩⟩
  exact ⟨⟨_, exec_skp_next h, s.skipIf_pc _, setPc_frame s _⟩, ⟨_, exec_sknp_next h, s.skipIf_not_pc _, setPc_frame s _⟩⟩

/-! ### The key wait and the timers (`45_keypad_timers.md` R188 to R191) -/

/-- Settles O56: the instruction is one write of the wait state. -/
theorem wkeyEntersTheWaitState : Obligations.WkeyEntersTheWaitState := by
  intro x s
  exact ⟨Laws.RoundTrip.wkey x rfl, _, rfl, s.setWait_wait _, setWait_frame s _⟩

/-- Settles O57: the instruction is one write of `x[X]`. -/
theorem lddtReadsTheDelayTimer : Obligations.LddtReadsTheDelayTimer := by
  intro x s
  exact ⟨Laws.RoundTrip.lddt x rfl, _, rfl, s.setReg_reg_same x s.dt, setReg_frame s x _⟩

/-- Settles O58: each instruction is one write of its timer, which the end of the step counts down. -/
theorem timerWritesAreDecrementedInTheSameStep : Obligations.TimerWritesAreDecrementedInTheSameStep := by
  intro x s
  exact ⟨Laws.RoundTrip.stdt x rfl, Laws.RoundTrip.stst x rfl,
    ⟨_, rfl, s.setDelay_dt _, setDelay_frame s _, endStep_dt _⟩,
    ⟨_, rfl, s.setSound_st _, setSound_frame s _, endStep_st _, endStep_beep _⟩⟩

end Sys2Proof.Machine

/-! PROOFS of the family `60_exceptions.md`: what the host reads and sets, the states of a run, and the order of a step's
faults. -/

namespace Sys2Proof.Machine

/-! ### The redraw flag as the host reads it (`60_exceptions.md` R214) -/

theorem takeDrawPending_frame (s : State) : OnlyWrites (among [.drawPending]) s (takeDrawPending s).2 := by
  intro f hf
  cases f with
  | drawPending => simp [among] at hf
  | _ => rfl

/-- Settles O10: taking the flag is one write of it. -/
theorem takeDrawPendingReturnsAndClears : Obligations.TakeDrawPendingReturnsAndClears := fun s =>
  ⟨rfl, rfl, takeDrawPending_frame s⟩

/-! ### The order of a step's faults (`60_exceptions.md` R204, R208) -/

theorem execWord_of_illegal {w : Word} (h : decodeWord w = .error (.illegal w)) (s : State) :
    execWord w s = .fault (.illegalOpcode w s.pc) := by
  rw [execWord, h, raise]

/-- Settles O13: the fetch succeeds, and the word fetched stops at decode. -/
theorem illegalWordFaults : Obligations.IllegalWordFaults := by
  intro s hf hw hpc hd
  have hstep : step s = afterExec (execWord (fetched s) s) := step_running hf hw hpc
  rw [hstep, execWord_of_illegal hd, afterExec]

theorem waitStep_ne_fault (r : Reg) (s : State) (f : Fault) : waitStep r s ≠ .fault f := by
  obtain ⟨t, ht⟩ := waitStep_completes r s
  simp [ht]

/-- Under the default `KEYSEL` an instruction stops only with its own fault. -/
theorem exec_ownFault {i : Instr} {s : State} {f : Fault} (hk : s.cfg.keySelect = .lowNibble)
    (h : exec i s = .fault f) : OwnFault i s f :=
  (exec_fault h).resolve_right fun ⟨hc, _⟩ => by simp [hk] at hc

/-- Settles O18: of the kinds of step, a healthy machine's wait step raises nothing, and each other stops where it says. -/
theorem faultsComeInTheOrderOfTheStep : Obligations.FaultsComeInTheOrderOfTheStep := by
  intro s f hf hk h
  obtain ⟨g, hg, -⟩ | ⟨-, r, -, e⟩ | ⟨-, hw, hpc, e⟩ | ⟨-, hw, hpc, w, rfl, hd, e⟩ | ⟨-, hw, hpc, i, hd, e⟩ := step_kinds s
  · cases hf.symm.trans hg
  · exact absurd (e.symm.trans h) (waitStep_ne_fault r s f)
  · cases e.symm.trans h
    exact ⟨hw, .inl ⟨hpc, rfl⟩⟩
  · cases e.symm.trans h
    exact ⟨hw, .inr (.inl ⟨hpc, hd, rfl⟩)⟩
  · have hexec : exec i s.advance = .fault f := afterExec_eq_fault.1 (e.symm.trans h)
    exact ⟨hw, .inr (.inr ⟨hpc, i, hd, exec_ownFault hk hexec⟩)⟩

/-! ### The invariant along a run (`60_exceptions.md` R216, R217) -/

/-- A ROM that `boot` accepts ends inside memory. -/
theorem boot_ok {c : Config} {rom : List Byte} {s : State} (h : boot c rom = .ok s) :
    c.progBase.toNat + rom.length ≤ c.memSize ∧ s = (State.resetWith c).pokeAll c.progBase.toNat rom := by
  rcases Nat.lt_or_ge c.memSize (c.progBase.toNat + rom.length) with hlt | hle
  · rw [boot, load_error (s := State.resetWith c) hlt] at h
    cases h
  · rw [boot, load_ok (s := State.resetWith c) hle] at h
    cases h
    exact ⟨hle, rfl⟩

/-- Construction and a ROM that fits: memory is written inside only, no address is held, and `pc` is at most `MEM_SIZE`. -/
theorem boot_inv {c : Config} {rom : List Byte} {s : State} (h : boot c rom = .ok s) : Inv s := by
  obtain ⟨hfit, rfl⟩ := boot_ok h
  refine ⟨State.pokeAll_wf (reset_memory_wf c) hfit, fun k hk => ?_, ?_⟩
  · rw [State.pokeAll_sp] at hk
    exact absurd hk k.val.not_lt_zero
  · rw [PcBounded, State.pokeAll_pc, State.pokeAll_cfg]
    exact le_pcBound ((Nat.le_add_right _ rom.length).trans hfit)

theorem supply_inv {s : State} (inputs : List StepInput) (hs : Inv s) : Inv (s.supply inputs) :=
  ⟨hs.memory, hs.stack, hs.pc⟩

theorem takeDrawPending_inv {s : State} (hs : Inv s) : Inv (takeDrawPending s).2 := ⟨hs.memory, hs.stack, hs.pc⟩

/-- Settles O27: the invariant holds after boot, and completed steps and the host's moves keep it. -/
theorem reachableStatesMeetTheInvariant : Obligations.ReachableStatesMeetTheInvariant := by
  intro s hs
  induction hs with
  | boot c rom s h => exact boot_inv h
  | tick s t _ h ih => exact stepKeepsTheInvariant s t ih h
  | supply s inputs _ ih => exact supply_inv inputs ih
  | takeDraw s _ ih => exact takeDrawPending_inv ih

end Sys2Proof.Machine

/-! PROOFS of the family `70_reset_and_hazards.md`: what construction leaves, and that it meets the invariant. -/

namespace Sys2Proof.Machine

/-! ### The reset state, component by component (`70_reset_and_hazards.md` R231) -/

theorem resetWith_reg (c : Config) (r : Reg) : (State.resetWith c).reg r = 0 :=
  Vector.getElem_replicate r.isLt

theorem resetWith_stack (c : Config) (k : Fin 16) : (State.resetWith c).stack[k] = 0 :=
  Vector.getElem_replicate k.isLt

theorem resetWith_fb (c : Config) : (State.resetWith c).fb = FrameBuffer.blank := rfl

theorem resetWith_pixel (c : Config) (x : Fin 64) (y : Fin 32) :
    FrameBuffer.pixel (State.resetWith c).fb x y = false := by
  rw [resetWith_fb, FrameBuffer.pixel_blank]

/-- No byte is listed at reset, so each address reads as its reset contents. -/
theorem resetWith_peek (c : Config) (a : Nat) : (State.resetWith c).peek a = Memory.unlisted c a := rfl

/-- The font stands from address 0. -/
theorem unlisted_of_font {c : Config} {a : Nat} {v : Byte} (h : c.font[a]? = some v) : Memory.unlisted c a = v := by
  rw [Memory.unlisted, List.getD_eq_getElem?_getD, h, Option.getD_some]

theorem unlisted_above_font {c : Config} {a : Nat} (h : c.font.length ≤ a) : Memory.unlisted c a = 0 :=
  List.getD_eq_default c.font 0 h

/-- Settles O9: the arrays hold one value throughout, memory reads as its reset contents, and the other components are
the fields of construction. -/
theorem resetLeavesListedValues : Obligations.ResetLeavesListedValues := by
  refine ⟨fun c => ?_, rfl, rfl, rfl⟩
  exact ⟨resetWith_reg c, rfl, rfl, resetWith_stack c, rfl, rfl, rfl, rfl, rfl, resetWith_pixel c, rfl,
    fun a v hv => (resetWith_peek c a).trans (unlisted_of_font hv),
    fun a ha => (resetWith_peek c a).trans (unlisted_above_font ha)⟩

/-! ### The invariant at reset -/

/-- With the entry point inside memory or at its end: nothing is listed in memory and no return address is held. -/
theorem resetWith_inv {c : Config} (h : c.progBase.toNat ≤ c.memSize) : Inv (State.resetWith c) where
  memory := reset_memory_wf c
  stack k hk := absurd hk k.val.not_lt_zero
  pc := le_pcBound h

/-- Settles O25: 0x200 lies inside the 4096 bytes of the default memory. -/
theorem resetMeetsTheInvariant : Obligations.ResetMeetsTheInvariant :=
  have hbase : defaultConfig.progBase.toNat ≤ defaultConfig.memSize := by decide
  resetWith_inv hbase

end Sys2Proof.Machine
